-- ==== Sys2Proof/Word.lean ====
section
/-! DEFINITION. The value types of the core: a polynomial over GF(2) as a length and a bit vector of that
length (00_scope.md R9, R10), and the plainest facts about lengths. -/

namespace Sys2Proof

/-- R10: a polynomial of length `len`, held as a `len`-bit value whose bit `j` is the coefficient of x^j.
Leading zeros count in `len`; the empty polynomial has `len = 0`. -/
structure Poly where
  len : Nat
  val : BitVec len
  deriving DecidableEq, Repr

/-- The coefficient of x^j (R10); zero at and above the length. -/
def Poly.coeff (p : Poly) (j : Nat) : Bool := p.val.getLsbD j

/-- The polynomial's value as an unsigned number (R104). -/
def Poly.toNat (p : Poly) : Nat := p.val.toNat

end Sys2Proof
end

