-- ==== Sys2Proof/Config.lean ====
section
/-! DEFINITION. The implementation parameters of 00_scope.md R7: fixed for a core, no state, changed by no
command. A core is any `Config`; the model and its claims hold for all of them. -/

namespace Sys2Proof

/-- The least `w` with `n ≤ 2^w`, the rounded-up binary logarithm of R7. -/
def clog2 (n : Nat) : Nat := if n ≤ 1 then 0 else (n - 1).log2 + 1

/-- R7: the least `w ≥ 1` with `n < 2^w`. -/
def bitlength (n : Nat) : Nat := n.log2 + 1

/-- The parameters as an integrator writes them, before any check (R7). `WellFormed.lean` checks them
(R8) and turns the valid ones into a `Config`. -/
structure Params where
  P : Nat
  G : Nat
  K : Nat
  N : Nat
  W : Nat
  deriving DecidableEq, Repr

/-- R7: the parameters of a core together with the constraints they meet, so that a configuration that
R8 refuses cannot be written at all. -/
structure Config where
  /-- Degree of the generator, the number of check bits. -/
  P : Nat
  /-- The generator, `P + 1` coefficients (R10). -/
  G : BitVec (P + 1)
  /-- Message length. -/
  K : Nat
  /-- Greatest operand length of MUL and MOD; OPEN in the spec (92_eei_decisions.md D2). -/
  W : Nat
  one_le_P : 1 ≤ P
  G_lead : G.getLsbD P = true
  G_const : G.getLsbD 0 = true
  one_le_K : 1 ≤ K
  one_le_W : 1 ≤ W
  deriving DecidableEq, Repr

/-- R7: codeword length, `N = K + P`. -/
abbrev Config.N (c : Config) : Nat := c.K + c.P

/-- R7: width of a position index, `max(1, ceil(log2 N))`. -/
def Config.IW (c : Config) : Nat := max 1 (clog2 c.N)

/-- R7: width of a length register, `bitlength(W)`. -/
def Config.LW (c : Config) : Nat := bitlength c.W

/-- The generator as a polynomial of length `P + 1` (R7, R10). -/
def Config.gen (c : Config) : Poly := ⟨c.P + 1, c.G⟩

/-- The source's configuration of R7 (P = 6, G = x^6 + x + 1, K = 4) at a given maximum operand length. -/
def Config.source (W : Nat) (hW : 1 ≤ W) : Config :=
  ⟨6, 0x43#7, 4, W, by decide, by decide, by decide, by decide, hW⟩

/-- The configuration `State.reset` is written at: the source's, with the `W = 16` of
95_test_vectors.md. DESIGN CHOICE (log 1): R7 leaves `W` open; every claim quantifies over all
configurations. -/
def Config.default : Config := Config.source 16 (by decide)

/-- R60: the platform's base address of the core, OPEN and used by no rule. No value can be proved of it
(log 2). -/
opaque Config.coreBase : Nat

end Sys2Proof
end

