-- ==== Sys2Proof/Syntax.lean ====
section
/-! DEFINITION. The six commands of 30_encoding.md R73, the register names of 10_state.md R21, the host's
accesses (20_memory.md R50) and the host-program statements of R76. -/

namespace Sys2Proof

/-- R73: one constructor per row of spec/opcode_table.json. No command has an operand field (R70, R72). -/
inductive Instr where
  | nop
  | mul
  | mod
  | enc
  | tbld
  | dec
  deriving DecidableEq, Repr

/-- R21: the mapped registers of the host port. -/
inductive RegName where
  | cmd
  | status
  | gen
  | opa
  | lena
  | opb
  | lenb
  | res
  | lenr
  | msg
  | cw
  | rx
  | syn
  | out
  | idx
  | tblkey
  | tbldata
  deriving DecidableEq, Repr

/-- R21: the host's access to a register. -/
inductive HostAccess where
  | readWrite
  | readOnly
  | writeOnly
  deriving DecidableEq, Repr

/-- R50, R211: what the outside world can do to the core, one event a step: read a register number, write
a value to one, or reset the core (log 10). -/
inductive PortEvent where
  | read (a : BitVec 5)
  | write (a : BitVec 5) (v : Nat)
  | reset
  deriving DecidableEq, Repr

/-- R76: a statement of a host program. `command i` is the pseudo-instruction `nop`, `mul`, `mod`, `enc`,
`tbld` or `dec`. -/
inductive HostStmt where
  | wr (r : RegName) (v : Nat)
  | rd (r : RegName)
  | command (i : Instr)
  | lookup (s : Nat)
  deriving DecidableEq, Repr

end Sys2Proof
end

