-- ==== Sys2Proof/WellFormed.lean ====
section
/-! DEFINITION. The checks: which parameters are a core (00_scope.md R8), which command words are not
reserved (30_encoding.md R74), and the well-formedness of instructions. -/

namespace Sys2Proof

/-- R7: every constraint on the parameters, with `G` a `P+1`-bit value. -/
def Params.wf (p : Params) : Bool :=
  decide (1 ≤ p.P) && decide (p.G < 2 ^ (p.P + 1)) && p.G.testBit p.P && p.G.testBit 0
    && decide (1 ≤ p.K) && decide (p.N = p.K + p.P) && decide (1 ≤ p.W)

/-- R8: a configuration that violates a constraint of R7 is refused at elaboration and has no
behaviour (log 11). -/
def Params.elaborate (p : Params) : Option Config :=
  if hP : 1 ≤ p.P then
    if hG : (BitVec.ofNat (p.P + 1) p.G).getLsbD p.P = true then
      if h0 : (BitVec.ofNat (p.P + 1) p.G).getLsbD 0 = true then
        if hK : 1 ≤ p.K then
          if hW : 1 ≤ p.W then
            if p.G < 2 ^ (p.P + 1) ∧ p.N = p.K + p.P then
              some ⟨p.P, BitVec.ofNat (p.P + 1) p.G, p.K, p.W, hP, hG, h0, hK, hW⟩
            else none
          else none
        else none
      else none
    else none
  else none

/-- R70: the RSV field of a command word. -/
def commandRsv (c : BitVec 8) : BitVec 4 := c.extractLsb' 4 4

/-- R70: the OP field of a command word. -/
def commandOp (c : BitVec 8) : BitVec 4 := c.extractLsb' 0 4

/-- R74: a command word is defined (not reserved) when RSV is 0 and OP names an assigned operation. -/
def commandWordWf (c : BitVec 8) : Bool := commandRsv c == 0#4 && decide (commandOp c ≤ 5#4)

/-- R70, R72: a command has no register, immediate or mode field, so every instruction is well formed. -/
def Instr.wf : Instr → Bool
  | .nop => true
  | .mul => true
  | .mod => true
  | .enc => true
  | .tbld => true
  | .dec => true

end Sys2Proof
end

