-- ==== Sys2Proof/Decode.lean ====
section
/-! DEFINITION. Decoding and encoding: command words (30_encoding.md R70 to R75), register numbers
(10_state.md R21) and host programs (R76). Decoding is total; a reserved word decodes to no instruction. -/

namespace Sys2Proof

/-- R73, R75: the command engine's decode of an 8-bit command word; `none` is a reserved word (R74). -/
def decode (c : BitVec 8) : Option Instr :=
  if c = 0x00#8 then some .nop
  else if c = 0x01#8 then some .mul
  else if c = 0x02#8 then some .mod
  else if c = 0x03#8 then some .enc
  else if c = 0x04#8 then some .tbld
  else if c = 0x05#8 then some .dec
  else none

/-- R73: the operation number, the OP field, of an instruction. -/
def opField : Instr → BitVec 4
  | .nop => 0#4
  | .mul => 1#4
  | .mod => 2#4
  | .enc => 3#4
  | .tbld => 4#4
  | .dec => 5#4

/-- R70: the command word of an instruction in format C8, RSV = 0 above OP. -/
def encode (i : Instr) : BitVec 8 := 0b0000#4 ++ opField i

/-- R71: every command word is exactly 8 bits. Reads the `nbits`-bit table word `w`; a word of another
length is no instruction (log 12). -/
def decodeTableWord (nbits w : Nat) : Option Instr :=
  if nbits = 8 then decode (BitVec.ofNat 8 w) else none

/-- R21: the register number of a register. -/
def RegName.addr : RegName → BitVec 5
  | .cmd => 0x00#5
  | .status => 0x01#5
  | .gen => 0x02#5
  | .opa => 0x03#5
  | .lena => 0x04#5
  | .opb => 0x05#5
  | .lenb => 0x06#5
  | .res => 0x07#5
  | .lenr => 0x08#5
  | .msg => 0x09#5
  | .cw => 0x0A#5
  | .rx => 0x0B#5
  | .syn => 0x0C#5
  | .out => 0x0D#5
  | .idx => 0x0E#5
  | .tblkey => 0x0F#5
  | .tbldata => 0x10#5

/-- R21, R57: the register at a register number; `none` for the unmapped 0x11 to 0x1F. -/
def RegName.ofAddr (a : BitVec 5) : Option RegName :=
  match a.toNat with
  | 0x00 => some .cmd
  | 0x01 => some .status
  | 0x02 => some .gen
  | 0x03 => some .opa
  | 0x04 => some .lena
  | 0x05 => some .opb
  | 0x06 => some .lenb
  | 0x07 => some .res
  | 0x08 => some .lenr
  | 0x09 => some .msg
  | 0x0A => some .cw
  | 0x0B => some .rx
  | 0x0C => some .syn
  | 0x0D => some .out
  | 0x0E => some .idx
  | 0x0F => some .tblkey
  | 0x10 => some .tbldata
  | _ => none

/-- R76: the accesses of one host statement; a command is a CMD write of its command word, a lookup a
TBLKEY write and a TBLDATA read. -/
def HostStmt.accesses : HostStmt → List PortEvent
  | .wr r v => [.write r.addr v]
  | .rd r => [.read r.addr]
  | .command i => [.write RegName.cmd.addr (encode i).toNat]
  | .lookup s => [.write RegName.tblkey.addr s, .read RegName.tbldata.addr]

/-- R76: the encoding of a host program is the sequence of its accesses. -/
def hostProgram (p : List HostStmt) : List PortEvent := p.flatMap HostStmt.accesses

end Sys2Proof
end

