-- ==== Sys2Proof/Machine/State.lean ====
section
/-! DEFINITION. The state of the core (10_state.md R20 to R34): its registers, its syndrome table, and the
host's side of the port; the reset state (70_reset_and_hazards.md R210); fault and refusal reasons. -/

namespace Sys2Proof.Machine

/-- R180: the error codes a command leaves in STATUS.ERR. -/
inductive ErrCode where
  | none
  | illegalCmd
  | badLength
  | degenerateDivisor
  deriving DecidableEq, Repr

/-- R34: the outcomes of a DEC in STATUS.DSTAT. -/
inductive DecodeStatus where
  | none
  | corrected
  | uncorrectable
  deriving DecidableEq, Repr

/-- R33: a syndrome-table entry. -/
structure Entry (c : Config) where
  valid : Bool
  pos : BitVec c.IW
  deriving DecidableEq, Repr

/-- R33: the entry of a key that is not in the mapping, `{0, 0}`. -/
def Entry.invalid (c : Config) : Entry c := ⟨false, 0#_⟩

/-- R20, R21, R33: everything the core stores, at the widths of its configuration. CMD, GEN and TBLDATA
have no storage (R22, R23, R32): they are views in `Regs.read` of Machine/Ops.lean. -/
structure Regs (c : Config) where
  status : BitVec 16
  opa : BitVec c.W
  lena : BitVec c.LW
  opb : BitVec c.W
  lenb : BitVec c.LW
  res : BitVec (2 * c.W - 1)
  lenr : BitVec (c.LW + 1)
  msg : BitVec c.K
  cw : BitVec c.N
  rx : BitVec c.N
  syn : BitVec c.P
  out : BitVec c.N
  idx : BitVec c.IW
  tblkey : BitVec c.P
  table : Vector (Entry c) (2 ^ c.P)
  deriving DecidableEq, Repr

/-- R210: the value of every register and table entry after reset. -/
def Regs.reset (c : Config) : Regs c where
  status := 0#_
  opa := 0#_
  lena := 0#_
  opb := 0#_
  lenb := 0#_
  res := 0#_
  lenr := 0#_
  msg := 0#_
  cw := 0#_
  rx := 0#_
  syn := 0#_
  out := 0#_
  idx := 0#_
  tblkey := 0#_
  table := Vector.replicate _ (Entry.invalid c)

/-- R55: a value returned to the host, with the register number it was read from; a plain number, since
registers differ in width (log 13). -/
structure Reply where
  addr : BitVec 5
  value : Nat
  deriving DecidableEq, Repr

/-- The machine: the core's configuration, its stored state, and the host's side of the port. `cfg` is the
elaboration parameters (R7), which no step writes; it stands here so that one type covers every core
(log 3). `port` holds the host's accesses still to come, in the host's order (R50, R61), and `replies` the
values reads have returned, oldest first; both belong to the host, not to the core (log 4). -/
structure State where
  cfg : Config
  regs : Regs cfg
  port : List PortEvent
  replies : List Reply
  deriving DecidableEq, Repr

/-- R210: the state right after reset of the core of `Config.default`, with no access pending. -/
def State.reset : State := ⟨Config.default, Regs.reset Config.default, [], []⟩

/-- The one way a step writes the core's stored state: configuration and port stay. -/
def State.withRegs (s : State) (r : Regs s.cfg) : State := { s with regs := r }

/-- R181, R191, R199: no condition stops the core: errors are recorded in STATUS and the next access
proceeds. There is no fault for a step to raise, so this type has no constructor (safe; log 7). -/
inductive Fault
  deriving DecidableEq, Repr

/-- Why a step has no meaning. -/
inductive Refusal where
  /-- Raised by `exec` for an instruction that has no meaning yet; every arm has one, so no step
  raises it (safe). -/
  | notModelled (mnemonic : String)
  deriving DecidableEq, Repr

/-- What a step or a command answers. -/
abbrev Result := Host.Outcome State Fault Refusal

end Sys2Proof.Machine
end

