-- ==== Sys2Proof/Machine/Flags.lean ====
section
/-! DEFINITION. The fields of STATUS (10_state.md R34) and how they are written. -/

namespace Sys2Proof.Machine

/-- R180: the number of an error code. -/
def ErrCode.code : ErrCode → BitVec 3
  | .none => 0#3
  | .illegalCmd => 1#3
  | .badLength => 2#3
  | .degenerateDivisor => 3#3

/-- R34: the number of a decode outcome. -/
def DecodeStatus.code : DecodeStatus → BitVec 2
  | .none => 0#2
  | .corrected => 1#2
  | .uncorrectable => 2#2

/-- `v` written into the bits `lo + w - 1` to `lo` of STATUS, every other bit kept. -/
def setField (st : BitVec 16) (lo : Nat) {w : Nat} (v : BitVec w) : BitVec 16 :=
  (st &&& ~~~((BitVec.allOnes w).setWidth 16 <<< lo)) ||| (v.setWidth 16 <<< lo)

/-- R34: STATUS[2:0]. -/
def statusErr (st : BitVec 16) : BitVec 3 := st.extractLsb' 0 3

/-- R34: STATUS[3]. -/
def statusErrs (st : BitVec 16) : Bool := st.getLsbD 3

/-- R34: STATUS[5:4]. -/
def statusDstat (st : BitVec 16) : BitVec 2 := st.extractLsb' 4 2

/-- R34: STATUS[6]. -/
def statusTblv (st : BitVec 16) : Bool := st.getLsbD 6

/-- R34: STATUS[7]. -/
def statusColl (st : BitVec 16) : Bool := st.getLsbD 7

/-- R34: the reserved bits STATUS[15:8]. -/
def statusReserved (st : BitVec 16) : BitVec 8 := st.extractLsb' 8 8

/-- R35: STATUS.ERR <- e. -/
def setErr (st : BitVec 16) (e : ErrCode) : BitVec 16 := setField st 0 e.code

/-- R36: STATUS.ERRS <- b. -/
def setErrs (st : BitVec 16) (b : Bool) : BitVec 16 := setField st 3 (BitVec.ofBool b)

/-- R37: STATUS.DSTAT <- d. -/
def setDstat (st : BitVec 16) (d : DecodeStatus) : BitVec 16 := setField st 4 d.code

/-- R38: STATUS.TBLV <- b. -/
def setTblv (st : BitVec 16) (b : Bool) : BitVec 16 := setField st 6 (BitVec.ofBool b)

/-- R39: STATUS.COLL <- b. -/
def setColl (st : BitVec 16) (b : Bool) : BitVec 16 := setField st 7 (BitVec.ofBool b)

end Sys2Proof.Machine
end

