-- ==== Sys2Proof/Machine/Gf2.lean ====
section
/-! DEFINITION. The pure polynomial functions every unit shares: MULP (40_gf2_arith.md R100), MODP (R101)
and SYNP (42_syndrome_table.md R132). -/

namespace Sys2Proof.Machine

/-- One row of R100: when `b` has the term x^j, add `a` shifted by `j`, that is
`c[i+j] ^= a[i] & b[j]` for every `i`. -/
def mulpRow (a b : Poly) (n : Nat) (acc : BitVec n) (j : Nat) : BitVec n :=
  if b.coeff j then acc ^^^ (a.val.setWidth n <<< j) else acc

/-- R100: `MULP(la, a, lb, b)`, the XOR convolution, of length `la + lb - 1`. -/
def mulp (a b : Poly) : Poly :=
  ⟨a.len + b.len - 1, (List.range b.len).foldl (mulpRow a b (a.len + b.len - 1)) 0#_⟩

/-- R101: one iteration on a dividend of length `n + 1 ≥ lb`: if the leading term is there, XOR the divisor
aligned at it; then drop the leading term. -/
def modpStep (b : Poly) (n : Nat) (d : BitVec (n + 1)) : BitVec n :=
  (if d.getLsbD n then d ^^^ (b.val.setWidth (n + 1) <<< (n + 1 - b.len)) else d).setWidth n

/-- R101: the loop, `while L >= lb`. The spec gives it for `lb ≥ 1`, where it stops before length 0
(log 9 for `lb = 0`). -/
def modpLoop (b : Poly) : (L : Nat) → BitVec L → Poly
  | 0, d => ⟨0, d⟩
  | n + 1, d => if b.len ≤ n + 1 then modpLoop b n (modpStep b n d) else ⟨n + 1, d⟩

/-- R101: `MODP(la, a, lb, b)`, long division. -/
def modp (a b : Poly) : Poly := modpLoop b a.len a.val

/-- R120: the monomial x^n, `1 << n`, of length `n + 1`. -/
def monomial (n : Nat) : Poly := ⟨n + 1, 1#(n + 1) <<< n⟩

/-- R132: the syndrome of an `N`-bit word, the `P`-bit remainder by the generator. -/
def synp (c : Config) (v : BitVec c.N) : BitVec c.P := (modp ⟨c.N, v⟩ c.gen).val.setWidth c.P

/-- R17: the word with only position `i` set, `1 << (N-1-i)`, for `i < N` (log 8 for other `i`). -/
def positionBit (c : Config) (i : Nat) : BitVec c.N := 1#_ <<< (c.N - 1 - i)

/-- R17: flip position `i` of a codeword value. -/
def flipPosition (c : Config) (v : BitVec c.N) (i : Nat) : BitVec c.N := v ^^^ positionBit c i

end Sys2Proof.Machine
end

