-- ==== Sys2Proof/Machine/Operands.lean ====
section
/-! DEFINITION. The operands of the commands (30_encoding.md R72): whole registers taken at the lengths of
LENA and LENB or of the parameters, and the length checks of MUL and MOD. -/

namespace Sys2Proof.Machine

variable {c : Config}

/-- R24: the low `n` bits of an operand register as a polynomial of length `n`, which the
commands check to be at most the width (log 9 otherwise). -/
def operand {w : Nat} (v : BitVec w) (n : Nat) : Poly := ⟨n, v.setWidth n⟩

/-- R24, R105, R106: operand a, OPA at length LENA. -/
def operandA (r : Regs c) : Poly := operand r.opa r.lena.toNat

/-- R24, R105, R106: operand b, OPB at length LENB. -/
def operandB (r : Regs c) : Poly := operand r.opb r.lenb.toNat

/-- R26, R120: the message polynomial, MSG at length K. -/
def messagePoly (r : Regs c) : Poly := ⟨c.K, r.msg⟩

/-- R105: the length check of MUL. -/
abbrev mulBadLength (r : Regs c) : Prop :=
  r.lena.toNat = 0 ∨ c.W < r.lena.toNat ∨ r.lenb.toNat = 0 ∨ c.W < r.lenb.toNat

/-- R106: the divisor check of MOD, made first (R186). -/
abbrev modDegenerate (r : Regs c) : Prop := r.lenb.toNat = 0

/-- R106: the length check of MOD, made when the divisor is not empty. -/
abbrev modBadLength (r : Regs c) : Prop :=
  r.lena.toNat = 0 ∨ c.W < r.lena.toNat ∨ c.W < r.lenb.toNat

end Sys2Proof.Machine
end

