-- ==== Sys2Proof/Machine/Ops.lean ====
section
/-! DEFINITION. The shared operations: ending a command (00_scope.md R12, 60_exceptions.md R181), writing
results, the syndrome table (42_syndrome_table.md), and reading and writing registers from the host port
(20_memory.md R55, R56). The core has no memory (R51, R65). -/

namespace Sys2Proof.Machine

variable {c : Config}

/-- The registers with STATUS replaced. -/
def Regs.withStatus (r : Regs c) (st : BitVec 16) : Regs c := { r with status := st }

/-- R12: `done()` on the registers: STATUS.ERR <- 0. -/
def Regs.done (r : Regs c) : Regs c := r.withStatus (setErr r.status .none)

/-- R12, R181: `fail(code)` on the registers: STATUS.ERR <- code, STATUS.ERRS <- 1, nothing else. -/
def Regs.fail (r : Regs c) (e : ErrCode) : Regs c :=
  r.withStatus (setErrs (setErr r.status e) true)

/-- A command that ends normally having left the registers `r` (R12). -/
def commandDone (s : State) (r : Regs s.cfg) : Result := .next (s.withRegs r.done)

/-- A command that fails (R181): the core's whole taking of an error (R191). The core goes on with the
next access, and there is no return from it (R192). -/
def commandFail (s : State) (e : ErrCode) : Result := .next (s.withRegs (s.regs.fail e))

/-- R25, R105, R106: RES and LENR from a result polynomial; the bits of RES above its length are 0. -/
def Regs.withResult (r : Regs c) (p : Poly) : Regs c :=
  { r with res := p.val.setWidth _, lenr := BitVec.ofNat _ p.len }

/-- R27, R120: CW <- v. -/
def Regs.withCodeword (r : Regs c) (v : BitVec c.N) : Regs c := { r with cw := v }

/-- R12: TABLE[s] <- e on a table. -/
def tableWrite (t : Vector (Entry c) (2 ^ c.P)) (key : BitVec c.P) (e : Entry c) :
    Vector (Entry c) (2 ^ c.P) := t.set key.toNat e key.isLt

/-- R12: TABLE[s] on a table. -/
def tableRead (t : Vector (Entry c) (2 ^ c.P)) (key : BitVec c.P) : Entry c :=
  t[key.toNat]'key.isLt

/-- R140: LOOKUP(s) = TABLE[s]. -/
def Regs.lookup (r : Regs c) (key : BitVec c.P) : Entry c := tableRead r.table key

/-- R135: the table with every entry `{0, 0}`, "built fresh". -/
def tableClear (c : Config) : Vector (Entry c) (2 ^ c.P) := Vector.replicate _ (Entry.invalid c)

/-- R135: what TBLD leaves: TABLE, TBLV = 1 and COLL. -/
def Regs.withTable (r : Regs c) (t : Vector (Entry c) (2 ^ c.P)) (coll : Bool) : Regs c :=
  { r with table := t, status := setColl (setTblv r.status true) coll }

/-- R150: what DEC leaves: SYN, OUT, IDX and DSTAT. -/
def Regs.withDecode (r : Regs c) (syn : BitVec c.P) (out : BitVec c.N) (idx : BitVec c.IW)
    (d : DecodeStatus) : Regs c :=
  { r with syn := syn, out := out, idx := idx, status := setDstat r.status d }

/-- R32: the table read port's view, `{valid, pos}` at TBLKEY. -/
def Regs.tbldata (r : Regs c) : BitVec (c.IW + 1) :=
  BitVec.cons (r.lookup r.tblkey).valid (r.lookup r.tblkey).pos

/-- R21: the width of a register. -/
def regWidth (c : Config) : RegName → Nat
  | .cmd => 8
  | .status => 16
  | .gen => c.P + 1
  | .opa => c.W
  | .lena => c.LW
  | .opb => c.W
  | .lenb => c.LW
  | .res => 2 * c.W - 1
  | .lenr => c.LW + 1
  | .msg => c.K
  | .cw => c.N
  | .rx => c.N
  | .syn => c.P
  | .out => c.N
  | .idx => c.IW
  | .tblkey => c.P
  | .tbldata => c.IW + 1

/-- R21: the host's access to a register. -/
def regAccess : RegName → HostAccess
  | .cmd => .writeOnly
  | .status => .readOnly
  | .gen => .readOnly
  | .opa => .readWrite
  | .lena => .readWrite
  | .opb => .readWrite
  | .lenb => .readWrite
  | .res => .readOnly
  | .lenr => .readOnly
  | .msg => .readWrite
  | .cw => .readOnly
  | .rx => .readWrite
  | .syn => .readOnly
  | .out => .readOnly
  | .idx => .readOnly
  | .tblkey => .readWrite
  | .tbldata => .readOnly

/-- R55: the value a host read of a mapped register returns, at exactly its width: CMD reads 0 (R22), GEN
reads the generator (R23), TBLDATA the table entry at TBLKEY (R32). -/
def Regs.read (r : Regs c) : (n : RegName) → BitVec (regWidth c n)
  | .cmd => 0#8
  | .status => r.status
  | .gen => c.G
  | .opa => r.opa
  | .lena => r.lena
  | .opb => r.opb
  | .lenb => r.lenb
  | .res => r.res
  | .lenr => r.lenr
  | .msg => r.msg
  | .cw => r.cw
  | .rx => r.rx
  | .syn => r.syn
  | .out => r.out
  | .idx => r.idx
  | .tblkey => r.tblkey
  | .tbldata => r.tbldata

/-- R56: a host write to a register that starts no command: a read-write register takes the low bits of
`v`, a read-only one ignores it. A write to CMD stores nothing (R22); its command is run in
Machine/Port.lean. -/
def Regs.write (r : Regs c) (v : Nat) : RegName → Regs c
  | .cmd => r
  | .status => r
  | .gen => r
  | .opa => { r with opa := BitVec.ofNat _ v }
  | .lena => { r with lena := BitVec.ofNat _ v }
  | .opb => { r with opb := BitVec.ofNat _ v }
  | .lenb => { r with lenb := BitVec.ofNat _ v }
  | .res => r
  | .lenr => r
  | .msg => { r with msg := BitVec.ofNat _ v }
  | .cw => r
  | .rx => { r with rx := BitVec.ofNat _ v }
  | .syn => r
  | .out => r
  | .idx => r
  | .tblkey => { r with tblkey := BitVec.ofNat _ v }
  | .tbldata => r

end Sys2Proof.Machine
end

