-- ==== Sys2Proof/Machine/Arith.lean ====
section
/-! DEFINITION. The polynomial multiplier and modulo engine (40_gf2_arith.md): MUL and MOD. -/

namespace Sys2Proof.Machine

/-- R105: MUL. Both lengths in [1, W], or BAD_LENGTH; RES and LENR take MULP of the operands. -/
def execMul (s : State) : Result :=
  if mulBadLength s.regs then commandFail s .badLength
  else commandDone s (s.regs.withResult (mulp (operandA s.regs) (operandB s.regs)))

/-- R106: MOD. DEGENERATE_DIVISOR for an empty divisor comes before BAD_LENGTH (R186); RES and LENR take
MODP of the operands. A non-empty divisor whose leading coefficient is 0 runs through the algorithm as
written (R103, 92_eei_decisions.md D11). -/
def execMod (s : State) : Result :=
  if modDegenerate s.regs then commandFail s .degenerateDivisor
  else if modBadLength s.regs then commandFail s .badLength
  else commandDone s (s.regs.withResult (modp (operandA s.regs) (operandB s.regs)))

end Sys2Proof.Machine
end

