-- ==== Sys2Proof/Machine/Control.lean ====
section
/-! DEFINITION. The control commands (44_control.md): NOP and the illegal command. -/

namespace Sys2Proof.Machine

/-- R170: NOP, `done()` and nothing else. -/
def execNop (s : State) : Result := commandDone s s.regs

/-- R171, R182: a reserved command word, `fail(ILLEGAL_CMD)`; no register is read. -/
def illegalCommand (s : State) : Result := commandFail s .illegalCmd

end Sys2Proof.Machine
end

