-- ==== Sys2Proof/Machine/Corrector.lean ====
section
/-! DEFINITION. The single-bit corrector (43_corrector.md): DEC. -/

namespace Sys2Proof.Machine

variable {c : Config}

/-- R150: DEC's registers: the syndrome of RX looked up; a hit flips the entry's position, a miss copies
RX. -/
def correct (r : Regs c) : Regs c :=
  if (r.lookup (synp c r.rx)).valid then
    r.withDecode (synp c r.rx) (flipPosition c r.rx (r.lookup (synp c r.rx)).pos.toNat)
      (r.lookup (synp c r.rx)).pos .corrected
  else r.withDecode (synp c r.rx) r.rx 0#_ .uncorrectable

/-- R150: DEC. An uncorrectable word is an outcome, not an error (R185). -/
def execDec (s : State) : Result := commandDone s (correct s.regs)

end Sys2Proof.Machine
end

