-- ==== Sys2Proof/Machine/Encoder.lean ====
section
/-! DEFINITION. The systematic cyclic encoder (41_encoder.md): ENC. -/

namespace Sys2Proof.Machine

variable {c : Config}

/-- R120: the shifted message, `MULP(K, m, P+1, x^P)`. -/
def shiftedMessage (r : Regs c) : Poly := mulp (messagePoly r) (monomial c.P)

/-- R120: the `P` check bits, the remainder of the shifted message by the generator. -/
def checkBits (r : Regs c) : BitVec c.P := (modp (shiftedMessage r) c.gen).val.setWidth c.P

/-- R120: the codeword `{m, r}`, the message followed by its check bits (90_conflicts.md C1). -/
def encodeMessage (r : Regs c) : BitVec c.N := r.msg ++ checkBits r

/-- R120: ENC. -/
def execEnc (s : State) : Result := commandDone s (s.regs.withCodeword (encodeMessage s.regs))

end Sys2Proof.Machine
end

