-- ==== Sys2Proof/Machine/Table.lean ====
section
/-! DEFINITION. The syndrome-table builder (42_syndrome_table.md): TBLD. -/

namespace Sys2Proof.Machine

/-- A table being built and whether a write has found its entry valid (R135). -/
abbrev TableBuild (c : Config) := Vector (Entry c) (2 ^ c.P) × Bool

/-- R135: the loop body for position `i`: flip it, take the syndrome, note a collision, write the entry. -/
def tableBuildStep (c : Config) (cw : BitVec c.N) (b : TableBuild c) (i : Nat) : TableBuild c :=
  let key := synp c (flipPosition c cw i)
  (tableWrite b.1 key ⟨true, BitVec.ofNat _ i⟩, b.2 || (tableRead b.1 key).valid)

/-- R135: clear the table, then the positions in ascending order. -/
def buildTable (c : Config) (cw : BitVec c.N) : TableBuild c :=
  (List.range c.N).foldl (tableBuildStep c cw) (tableClear c, false)

/-- R135: TBLD. -/
def execTbld (s : State) : Result :=
  commandDone s (s.regs.withTable (buildTable s.cfg s.regs.cw).1 (buildTable s.cfg s.regs.cw).2)

end Sys2Proof.Machine
end

