-- ==== Sys2Proof/Machine/Dispatch.lean ====
section
/-! DEFINITION. The meaning of every command (30_encoding.md R73), one arm per constructor of Instr. -/

namespace Sys2Proof.Machine

/-- R75: execute a decoded command. -/
def exec (i : Instr) (s : State) : Host.Outcome State Fault Refusal :=
  match i with
  | .nop => Sys2Proof.Machine.execNop s
  | .mul => Sys2Proof.Machine.execMul s
  | .mod => Sys2Proof.Machine.execMod s
  | .enc => Sys2Proof.Machine.execEnc s
  | .tbld => Sys2Proof.Machine.execTbld s
  | .dec => Sys2Proof.Machine.execDec s

end Sys2Proof.Machine
end

