-- ==== Sys2Proof/Machine/Port.lean ====
section
/-! DEFINITION. The host port (20_memory.md R50 to R59): what one host access, or a reset, does. -/

namespace Sys2Proof.Machine

/-- R55, R57: the value `HostRead(a)` returns; an unmapped number reads 0. -/
def hostRead (s : State) (a : BitVec 5) : Nat :=
  match RegName.ofAddr a with
  | some n => (s.regs.read n).toNat
  | none => 0

/-- R55: a host read: its value goes to the host, the core is unchanged. -/
def acceptRead (s : State) (a : BitVec 5) : Result :=
  .next { s with replies := s.replies ++ [⟨a, hostRead s a⟩] }

/-- R75: the command engine on a command word. -/
def runCommand (s : State) (c : BitVec 8) : Result :=
  match decode c with
  | some i => exec i s
  | none => illegalCommand s

/-- R56, R57: a host write: a CMD write runs the command of the value's low 8 bits; any other register
takes or ignores the value; an unmapped number ignores it. -/
def acceptWrite (s : State) (a : BitVec 5) (v : Nat) : Result :=
  match RegName.ofAddr a with
  | some n => if n = .cmd then runCommand s (BitVec.ofNat 8 v) else .next (s.withRegs (s.regs.write v n))
  | none => .next s

/-- R211: the reset event: every register and table entry at its reset value. -/
def acceptReset (s : State) : Result := .next (s.withRegs (Regs.reset s.cfg))

/-- R50, R211: one event of the port. -/
def accept (s : State) : PortEvent → Result
  | .read a => acceptRead s a
  | .write a v => acceptWrite s a v
  | .reset => acceptReset s

/-- R50, R61: take the host's next access and perform it whole. With no access pending nothing happens
(R199; log 5). -/
def serve (s : State) : Result :=
  match s.port with
  | [] => .next s
  | e :: rest => accept { s with port := rest } e

/-- The host's next access made a CMD write of the `nbits`-bit word `w`. -/
def putCommand (s : State) (nbits w : Nat) : State :=
  { s with port := .write RegName.cmd.addr (w % 2 ^ nbits) :: s.port }

end Sys2Proof.Machine
end

