-- ==== Sys2Proof/Machine/Step.lean ====
section
/-! DEFINITION. One step of the machine: one host access (20_memory.md R50). -/

namespace Sys2Proof.Machine

/-- R50: one access is one step. -/
def step (s : State) : Host.Outcome State Fault Refusal := serve s

/-- A command comes to the core as a host write of CMD (R64): the word is put at the head of the host's
accesses, so that the very next step runs it (log 6). -/
def State.withFetchWord (s : State) (nbits w : Nat) : State := putCommand s nbits w

end Sys2Proof.Machine
end

