-- ==== Sys2Proof/Machine/Codec.lean ====
section
/-! DEFINITION. The bit-vector codec (20_memory.md R53), polynomial equality (40_gf2_arith.md R104) and the
source's rendering of a polynomial (42_syndrome_table.md R130). No command calls them: the core's values are
the codec's identity and its table has no strings. They are here so that the spec's rules about them can be
stated. -/

namespace Sys2Proof.Machine

/-- R10, R53: ToBitVector, the source sequence of a polynomial, highest term first. -/
def toSeq (p : Poly) : List Bool := (List.range p.len).map fun s => p.coeff (p.len - 1 - s)

/-- R53: FromBitVector; an empty sequence is invalid. -/
def fromSeq (l : List Bool) : Option Poly :=
  if l = [] then none else some ⟨l.length, BitVec.ofBoolListBE l⟩

/-- R104: polynomial equality, blind to leading zeros. -/
def polyEqual (a b : Poly) : Bool := a.toNat == b.toNat

/-- R104: the zero polynomial, of whatever length. -/
def polyZero (a : Poly) : Bool := a.toNat == 0

/-- R130: the degrees of the non-zero coefficients, descending. -/
def renderDegrees (p : Poly) : List Nat := (List.range p.len).reverse.filter p.coeff

/-- R130: the text of a term. -/
def renderTerm : Nat → String
  | 0 => "1"
  | 1 => "x"
  | d => "x^" ++ toString d

/-- R130: Render. -/
def render (p : Poly) : String :=
  if renderDegrees p = [] then "0" else " + ".intercalate ((renderDegrees p).map renderTerm)

end Sys2Proof.Machine
end

