-- ==== Sys2Proof/Safety.lean ====
section
/-! DEFINITION. What the claims speak of: the mathematical reading of the core's values, frames, and the
invariants of 10_state.md (R25, R34, R40, R41) that every run keeps. -/

namespace Sys2Proof.Machine

variable {c : Config}

/-- R10: the polynomial over GF(2) that a value stands for. -/
noncomputable def toPolynomial (p : Poly) : Polynomial (ZMod 2) :=
  ∑ j ∈ Finset.range p.len, if p.coeff j then Polynomial.X ^ j else 0

/-- R100's coefficient of x^k, "XOR over all (i, j) with i < la, j < lb, i + j = k of a[i] & b[j]": the
number of such pairs with both bits set is odd. -/
def convolutionBit {v w : Nat} (la : Nat) (a : BitVec v) (lb : Nat) (b : BitVec w) (k : Nat) : Prop :=
  Odd ((Finset.range la ×ˢ Finset.range lb).filter fun p =>
    p.1 + p.2 = k ∧ a.getLsbD p.1 = true ∧ b.getLsbD p.2 = true).card

/-- The fields of STATUS (R34). -/
structure StatusFields where
  err : BitVec 3
  errs : Bool
  dstat : BitVec 2
  tblv : Bool
  coll : Bool
  reserved : BitVec 8
  deriving DecidableEq, Repr

/-- R34: STATUS taken apart. -/
def statusFields (st : BitVec 16) : StatusFields :=
  ⟨statusErr st, statusErrs st, statusDstat st, statusTblv st, statusColl st, statusReserved st⟩

/-- A frame: every register of the host port but those listed reads as before. TBLDATA is a view of the
table (R32) and is listed where the table may change. -/
def SameExcept (changed : List RegName) (r r' : Regs c) : Prop :=
  ∀ n : RegName, n ∉ changed → r'.read n = r.read n

/-- The host's next access writes CMD with the command word `w` (R56). -/
def NextIsCommand (s : State) (w : BitVec 8) : Prop :=
  ∃ v rest, s.port = .write 0x00#5 v :: rest ∧ BitVec.ofNat 8 v = w

/-- The next event of the port is a reset (R211). -/
def NextIsReset (s : State) : Prop := ∃ rest, s.port = .reset :: rest

/-- R36: no command has failed since reset. -/
def NoFailure (s : State) : Prop := (statusFields s.regs.status).errs = false

/-- R34, R35, R37: reserved bits read 0, ERR is a code of R180, DSTAT is not 3. -/
def StatusLegal (r : Regs c) : Prop :=
  (statusFields r.status).reserved = 0#8 ∧ (statusFields r.status).err.toNat ≤ 3 ∧ (statusFields r.status).dstat.toNat ≤ 2

/-- R35, R36: an error code in ERR is also recorded in ERRS. -/
def ErrRecorded (r : Regs c) : Prop :=
  (statusFields r.status).err ≠ 0#3 → (statusFields r.status).errs = true

/-- R25: LENR is a length RES can hold, and the bits of RES at and above it are 0. -/
def ResultZeroAbove (r : Regs c) : Prop :=
  r.lenr.toNat ≤ 2 * c.W - 1 ∧ ∀ j, r.lenr.toNat ≤ j → r.res.getLsbD j = false

/-- R40: an N-bit word is a codeword, `MODP(N, v, P+1, G) = (P, 0)`. -/
def IsCodeword (c : Config) (v : BitVec c.N) : Prop := modp ⟨c.N, v⟩ c.gen = ⟨c.P, 0#c.P⟩

/-- R139: x^j modulo G, for a degree `j < N`, as a P-bit value. -/
def powerOfX (c : Config) (j : Nat) : BitVec c.P := synp c (1#c.N <<< j)

/-- R136: the syndrome of position `i`, x^(N-1-i) modulo G. -/
def positionSyndrome (c : Config) (i : Nat) : BitVec c.P := synp c (positionBit c i)

/-- R137: the entry the table T_{G,N} has at a key: the largest position with that syndrome, or `{0, 0}`
when there is none. -/
def FixedEntry (c : Config) (key : BitVec c.P) (e : Entry c) : Prop :=
  (e.valid = true → e.pos.toNat < c.N ∧ positionSyndrome c e.pos.toNat = key ∧
    ∀ i, e.pos.toNat < i → i < c.N → positionSyndrome c i ≠ key) ∧
  (e.valid = false → e.pos = 0#_ ∧ ∀ i, i < c.N → positionSyndrome c i ≠ key)

/-- R137: a table equal to T_{G,N}. -/
def FixedTable (c : Config) (t : Vector (Entry c) (2 ^ c.P)) : Prop :=
  ∀ key, FixedEntry c key (tableRead t key)

/-- R139: two positions share a syndrome. -/
def Collision (c : Config) : Prop :=
  ∃ i j, i < j ∧ j < c.N ∧ positionSyndrome c i = positionSyndrome c j

/-- R41: never built and all invalid, or built and T_{G,N}. -/
def TableInv (r : Regs c) : Prop :=
  ((statusFields r.status).tblv = false ∧ ∀ key, tableRead r.table key = Entry.invalid c) ∨
  ((statusFields r.status).tblv = true ∧ FixedTable c r.table)

/-- R39: COLL tells of a collision once a table is built. -/
def CollInv (r : Regs c) : Prop :=
  (statusFields r.status).tblv = true → ((statusFields r.status).coll = true ↔ Collision c)

/-- R31: IDX holds a position of the codeword. -/
def IdxInRange (r : Regs c) : Prop := r.idx.toNat < c.N

/-- What every run of the core keeps. -/
structure RunInv (r : Regs c) : Prop where
  status : StatusLegal r
  recorded : ErrRecorded r
  result : ResultZeroAbove r
  codeword : IsCodeword c r.cw
  table : TableInv r
  coll : CollInv r
  idx : IdxInRange r

end Sys2Proof.Machine
end

