-- ==== Sys2Proof/Certificates/Slice0/Obligations.lean ====
section
/-! DEFINITION. The statements for the provers, one `def Obligations.<Name> : Prop` each. Every statement
quantifies over the state, and so over every configuration of 00_scope.md R7. -/

open Sys2Proof Sys2Proof.Machine

/-! ### Encoding and decoding (30_encoding.md) -/

/-- 30_encoding.md R70, R73: the six command words, bit by bit, and no other word, are the six commands; an
encoded command decodes to itself. -/
def Obligations.CommandWordsDecodeAsTabled : Prop :=
  decode 0b00000000#8 = some .nop ∧ decode 0b00000001#8 = some .mul ∧
  decode 0b00000010#8 = some .mod ∧ decode 0b00000011#8 = some .enc ∧
  decode 0b00000100#8 = some .tbld ∧ decode 0b00000101#8 = some .dec ∧
  ∀ (w : BitVec 8) (i : Instr), decode w = some i ↔ w = encode i

/-- R75: on a write of CMD the command engine takes the low 8 bits and executes the first matching case. -/
def Obligations.CmdWriteExecutesFirstMatchingCase : Prop :=
  ∀ (s : State) (v : Nat) (rest : List PortEvent), s.port = .write 0x00#5 v :: rest →
    (v % 256 = 0x00 → step s = exec .nop { s with port := rest }) ∧
    (v % 256 = 0x01 → step s = exec .mul { s with port := rest }) ∧
    (v % 256 = 0x02 → step s = exec .mod { s with port := rest }) ∧
    (v % 256 = 0x03 → step s = exec .enc { s with port := rest }) ∧
    (v % 256 = 0x04 → step s = exec .tbld { s with port := rest }) ∧
    (v % 256 = 0x05 → step s = exec .dec { s with port := rest }) ∧
    (0x05 < v % 256 → step s = illegalCommand { s with port := rest })

/-- A step runs the decoded instruction: when the host's next access writes CMD with a word that decodes to
`i`, the step takes that access off the port and is `exec i`. The word put by `withFetchWord` (the model's
own way to place a command, log 6) is run so. -/
def Obligations.StepRunsDecodedInstruction : Prop :=
  (∀ (s : State) (v : Nat) (rest : List PortEvent) (i : Instr), s.port = .write 0x00#5 v :: rest →
    decode (BitVec.ofNat 8 v) = some i → step s = exec i { s with port := rest }) ∧
  (∀ (s : State) (w : Nat) (i : Instr), decodeTableWord 8 w = some i →
    step (s.withFetchWord 8 w) = exec i s)

/-- R171: a reserved word, RSV not 0 or OP 6 and above, sets ERR to 1 and ERRS to 1 and changes nothing
else, whatever the operand registers hold. -/
def Obligations.ReservedWordFailsIllegalCmd : Prop :=
  ∀ (s : State) (v : Nat) (rest : List PortEvent), s.port = .write 0x00#5 v :: rest →
    (v / 16 % 16 ≠ 0 ∨ 6 ≤ v % 16) →
    ∃ t : Regs s.cfg, step s = .next (({ s with port := rest } : State).withRegs t) ∧
      statusFields t.status = { statusFields s.regs.status with err := 1#3, errs := true } ∧
      SameExcept [.status] s.regs t ∧ t.table = s.regs.table

/-! ### The host port (10_state.md, 20_memory.md) -/

/-- R21: number, width and host access of every register, and the numbers that name none. -/
def Obligations.RegisterTableAsSpecified : Prop :=
  ∀ c : Config,
    (List.map (fun n => (RegName.addr n, regWidth c n, regAccess n))
      [.cmd, .status, .gen, .opa, .lena, .opb, .lenb, .res, .lenr, .msg, .cw, .rx, .syn, .out, .idx,
        .tblkey, .tbldata] =
      [(0x00#5, 8, .writeOnly), (0x01#5, 16, .readOnly), (0x02#5, c.P + 1, .readOnly),
       (0x03#5, c.W, .readWrite), (0x04#5, c.LW, .readWrite), (0x05#5, c.W, .readWrite),
       (0x06#5, c.LW, .readWrite), (0x07#5, 2 * c.W - 1, .readOnly), (0x08#5, c.LW + 1, .readOnly),
       (0x09#5, c.K, .readWrite), (0x0A#5, c.N, .readOnly), (0x0B#5, c.N, .readWrite),
       (0x0C#5, c.P, .readOnly), (0x0D#5, c.N, .readOnly), (0x0E#5, c.IW, .readOnly),
       (0x0F#5, c.P, .readWrite), (0x10#5, c.IW + 1, .readOnly)]) ∧
    (∀ n : RegName, RegName.ofAddr n.addr = some n) ∧
    (∀ a : BitVec 5, RegName.ofAddr a = none ↔ 0x11 ≤ a.toNat)

/-- R55: a host read returns the register's current value, 0 for CMD, the table entry at TBLKEY for
TBLDATA and 0 for an unmapped number, and changes nothing of the core. That the returned value is kept in a
list of replies is the model's choice (log 4), and so is its form, a natural number with the register
number it was read from (log 13). -/
def Obligations.HostReadReturnsCurrentValue : Prop :=
  ∀ (s : State) (a : BitVec 5) (rest : List PortEvent), s.port = .read a :: rest →
    ∃ v : Nat, step s = .next { s with port := rest, replies := s.replies ++ [⟨a, v⟩] } ∧
      (a = 0x00#5 → v = 0) ∧ (a = 0x01#5 → v = s.regs.status.toNat) ∧
      (a = 0x02#5 → v = s.cfg.G.toNat) ∧ (a = 0x03#5 → v = s.regs.opa.toNat) ∧
      (a = 0x04#5 → v = s.regs.lena.toNat) ∧ (a = 0x05#5 → v = s.regs.opb.toNat) ∧
      (a = 0x06#5 → v = s.regs.lenb.toNat) ∧ (a = 0x07#5 → v = s.regs.res.toNat) ∧
      (a = 0x08#5 → v = s.regs.lenr.toNat) ∧ (a = 0x09#5 → v = s.regs.msg.toNat) ∧
      (a = 0x0A#5 → v = s.regs.cw.toNat) ∧ (a = 0x0B#5 → v = s.regs.rx.toNat) ∧
      (a = 0x0C#5 → v = s.regs.syn.toNat) ∧ (a = 0x0D#5 → v = s.regs.out.toNat) ∧
      (a = 0x0E#5 → v = s.regs.idx.toNat) ∧ (a = 0x0F#5 → v = s.regs.tblkey.toNat) ∧
      (a = 0x10#5 → v = (if (tableRead s.regs.table s.regs.tblkey).valid then 2 ^ s.cfg.IW else 0) +
        (tableRead s.regs.table s.regs.tblkey).pos.toNat) ∧
      (0x11 ≤ a.toNat → v = 0)

/-- R56, R57: a host write stores the value's low bits in a read-write register and in nothing else, runs
the command of its low 8 bits when it names CMD, and does nothing at a read-only register or an unmapped
number. -/
def Obligations.HostWriteStoresLowBits : Prop :=
  ∀ (s : State) (a : BitVec 5) (v : Nat) (rest : List PortEvent), s.port = .write a v :: rest →
    (∀ n ∈ [RegName.opa, .lena, .opb, .lenb, .msg, .rx, .tblkey], a = n.addr →
      ∃ t : Regs s.cfg, step s = .next (({ s with port := rest } : State).withRegs t) ∧
        (t.read n).toNat = v % 2 ^ regWidth s.cfg n ∧
        SameExcept [n, .tbldata] s.regs t ∧ t.table = s.regs.table) ∧
    (a = RegName.cmd.addr → step s = runCommand { s with port := rest } (BitVec.ofNat 8 v)) ∧
    (∀ n ∈ [RegName.status, .gen, .res, .lenr, .cw, .syn, .out, .idx, .tbldata], a = n.addr →
      step s = .next { s with port := rest }) ∧
    (0x11 ≤ a.toNat → step s = .next { s with port := rest })

/-- The core never stops: every step answers a next state, errors included (R181, R199). That a step with no
access pending changes nothing is the model's choice (log 5). -/
def Obligations.StepAlwaysAnswersNext : Prop :=
  ∀ s : State, ∃ t : State, step s = .next t ∧ t.port = s.port.tail ∧
    ∃ more, t.replies = s.replies ++ more

/-- R7, R23: the parameters are configuration and no step changes them; GEN always reads G. -/
def Obligations.ConfigurationNeverChanges : Prop :=
  ∀ s t : State, step s = .next t → t.cfg = s.cfg ∧ hostRead t 0x02#5 = s.cfg.G.toNat

/-- R210: the value of every register, STATUS field and table entry after reset, for every
configuration. -/
def Obligations.ResetStateValues : Prop :=
  ∀ c : Config, let r := Regs.reset c
    r.status = 0x0000#16 ∧
    statusFields r.status = ⟨0#3, false, 0#2, false, false, 0#8⟩ ∧ r.read .gen = c.G ∧
    r.opa = 0#_ ∧ r.lena = 0#_ ∧ r.opb = 0#_ ∧ r.lenb = 0#_ ∧ r.res = 0#_ ∧ r.lenr = 0#_ ∧
    r.msg = 0#_ ∧ r.cw = 0#_ ∧ r.rx = 0#_ ∧ r.syn = 0#_ ∧ r.out = 0#_ ∧ r.idx = 0#_ ∧ r.tblkey = 0#_ ∧
    (∀ key, tableRead r.table key = ⟨false, 0#_⟩) ∧ State.reset.regs = Regs.reset State.reset.cfg

/-- R211: a reset event puts the core in the reset state, and it is the only way to clear ERRS and TBLV, and
apart from TBLD to make a valid table entry invalid. That a reset is an event in the host's list of accesses
and leaves the accesses to come and the replies is the model's choice (log 10). -/
def Obligations.ResetEventSetsResetState : Prop :=
  (∀ (s : State) (rest : List PortEvent), s.port = .reset :: rest →
    step s = .next (({ s with port := rest } : State).withRegs (Regs.reset s.cfg))) ∧
  (∀ s : State, ¬ NextIsReset s → ∃ (r : Regs s.cfg) (port : List PortEvent) (replies : List Reply),
    step s = .next ⟨s.cfg, r, port, replies⟩ ∧
    ((statusFields s.regs.status).errs = true → (statusFields r.status).errs = true) ∧
    ((statusFields s.regs.status).tblv = true → (statusFields r.status).tblv = true) ∧
    (¬ NextIsCommand s 0x04#8 → r.table = s.regs.table))

/-! ### Commands: completion, results and frames -/

/-- R170: NOP clears ERR and changes nothing else. -/
def Obligations.NopOnlyClearsErr : Prop :=
  ∀ s : State, ∃ t : Regs s.cfg, exec .nop s = .next (s.withRegs t) ∧
    statusFields t.status = { statusFields s.regs.status with err := 0#3 } ∧
    SameExcept [.status] s.regs t ∧ t.table = s.regs.table

/-- R105: MUL. With both lengths in [1, W] it completes: LENR is la + lb - 1, bit k of RES is the XOR over
i + j = k of a[i] & b[j], bits at and above LENR 0, ERR 0. Otherwise it reports BAD_LENGTH. Nothing else
changes. -/
def Obligations.MulMultipliesOrReportsBadLength : Prop :=
  decode 0x01#8 = some .mul ∧
  (∀ s : State, 1 ≤ s.regs.lena.toNat → s.regs.lena.toNat ≤ s.cfg.W → 1 ≤ s.regs.lenb.toNat →
    s.regs.lenb.toNat ≤ s.cfg.W →
    ∃ t : Regs s.cfg, exec .mul s = .next (s.withRegs t) ∧
      t.lenr.toNat = s.regs.lena.toNat + s.regs.lenb.toNat - 1 ∧
      (∀ k, t.res.getLsbD k = true ↔
        convolutionBit s.regs.lena.toNat s.regs.opa s.regs.lenb.toNat s.regs.opb k) ∧
      statusFields t.status = { statusFields s.regs.status with err := 0#3 } ∧
      SameExcept [.status, .res, .lenr] s.regs t ∧ t.table = s.regs.table) ∧
  (∀ s : State, s.regs.lena.toNat = 0 ∨ s.cfg.W < s.regs.lena.toNat ∨ s.regs.lenb.toNat = 0 ∨
      s.cfg.W < s.regs.lenb.toNat →
    ∃ t : Regs s.cfg, exec .mul s = .next (s.withRegs t) ∧
      statusFields t.status = { statusFields s.regs.status with err := 2#3, errs := true } ∧
      SameExcept [.status] s.regs t ∧ t.table = s.regs.table)

/-- R106: MOD. A divisor of length 0 reports DEGENERATE_DIVISOR; otherwise a length out of range reports
BAD_LENGTH; otherwise it completes with MODP of the operands' low bits, bits of RES above LENR 0, ERR 0.
Nothing else changes. -/
def Obligations.ModDividesOrReportsError : Prop :=
  decode 0x02#8 = some .mod ∧
  (∀ s : State, s.regs.lenb.toNat = 0 →
    ∃ t : Regs s.cfg, exec .mod s = .next (s.withRegs t) ∧
      statusFields t.status = { statusFields s.regs.status with err := 3#3, errs := true } ∧
      SameExcept [.status] s.regs t ∧ t.table = s.regs.table) ∧
  (∀ s : State, s.regs.lenb.toNat ≠ 0 →
    s.regs.lena.toNat = 0 ∨ s.cfg.W < s.regs.lena.toNat ∨ s.cfg.W < s.regs.lenb.toNat →
    ∃ t : Regs s.cfg, exec .mod s = .next (s.withRegs t) ∧
      statusFields t.status = { statusFields s.regs.status with err := 2#3, errs := true } ∧
      SameExcept [.status] s.regs t ∧ t.table = s.regs.table) ∧
  (∀ s : State, 1 ≤ s.regs.lena.toNat → s.regs.lena.toNat ≤ s.cfg.W → 1 ≤ s.regs.lenb.toNat →
    s.regs.lenb.toNat ≤ s.cfg.W →
    ∃ (t : Regs s.cfg) (q : Poly),
      q = modp ⟨s.regs.lena.toNat, s.regs.opa.setWidth _⟩ ⟨s.regs.lenb.toNat, s.regs.opb.setWidth _⟩ ∧
      exec .mod s = .next (s.withRegs t) ∧
      t.lenr.toNat = q.len ∧ (∀ k, t.res.getLsbD k = q.coeff k) ∧
      statusFields t.status = { statusFields s.regs.status with err := 0#3 } ∧
      SameExcept [.status, .res, .lenr] s.regs t ∧ t.table = s.regs.table)

/-- R183, R184, R186: exactly when a command reports each error: MUL BAD_LENGTH, MOD BAD_LENGTH, MOD
DEGENERATE_DIVISOR whatever LENA is; no other command reports either. -/
def Obligations.LengthErrorsExactly : Prop :=
  ∀ (s : State) (i : Instr), ∃ t : Regs s.cfg, exec i s = .next (s.withRegs t) ∧
    ((statusFields t.status).err = 2#3 ↔
      (i = .mul ∧ ¬ (1 ≤ s.regs.lena.toNat ∧ s.regs.lena.toNat ≤ s.cfg.W ∧ 1 ≤ s.regs.lenb.toNat ∧
        s.regs.lenb.toNat ≤ s.cfg.W)) ∨
      (i = .mod ∧ s.regs.lenb.toNat ≠ 0 ∧
        (¬ (1 ≤ s.regs.lena.toNat ∧ s.regs.lena.toNat ≤ s.cfg.W) ∨ s.cfg.W < s.regs.lenb.toNat))) ∧
    ((statusFields t.status).err = 3#3 ↔ i = .mod ∧ s.regs.lenb.toNat = 0) ∧
    ((statusFields t.status).err ≠ 0#3 → t.res = s.regs.res ∧ t.lenr = s.regs.lenr)

/-- R120: ENC completes: CW is the message followed by the P-bit remainder of the shifted message by G, ERR
is 0, and nothing else changes. -/
def Obligations.EncWritesSystematicCodeword : Prop :=
  decode 0x03#8 = some .enc ∧
  ∀ s : State, ∃ t : Regs s.cfg, exec .enc s = .next (s.withRegs t) ∧
    (∀ j, t.cw.getLsbD j = if j < s.cfg.P
      then (modp (mulp ⟨s.cfg.K, s.regs.msg⟩ (monomial s.cfg.P)) s.cfg.gen).coeff j
      else s.regs.msg.getLsbD (j - s.cfg.P)) ∧
    statusFields t.status = { statusFields s.regs.status with err := 0#3 } ∧
    SameExcept [.status, .cw] s.regs t ∧ t.table = s.regs.table

/-- R121: the codeword equals the shifted message XOR the zero-extended remainder. -/
def Obligations.CodewordIsShiftedXorRemainder : Prop :=
  ∀ s : State, ∃ t : Regs s.cfg, exec .enc s = .next (s.withRegs t) ∧
    t.cw = (s.regs.msg.setWidth s.cfg.N <<< s.cfg.P) ^^^
      (modp (mulp ⟨s.cfg.K, s.regs.msg⟩ (monomial s.cfg.P)) s.cfg.gen).val.setWidth s.cfg.N

/-- R122: every encoded word is divisible by G: MODP(N, CW, P+1, G) = (P, 0) after every ENC. -/
def Obligations.EncodedCodewordDivisible : Prop :=
  ∀ s : State, ∃ t : Regs s.cfg, exec .enc s = .next (s.withRegs t) ∧
    modp ⟨s.cfg.N, t.cw⟩ ⟨s.cfg.P + 1, s.cfg.G⟩ = ⟨s.cfg.P, 0#s.cfg.P⟩

/-- R123: after ENC, CW[N-1:P] is MSG unmodified and CW[P-1:0] are the P check bits of R120; CW is the only
codeword whose message part is MSG. -/
def Obligations.EncodedMessageUnmodified : Prop :=
  ∀ s : State, ∃ t : Regs s.cfg, exec .enc s = .next (s.withRegs t) ∧
    t.cw.extractLsb' s.cfg.P s.cfg.K = s.regs.msg ∧
    t.cw.extractLsb' 0 s.cfg.P =
      (modp (mulp ⟨s.cfg.K, s.regs.msg⟩ (monomial s.cfg.P)) s.cfg.gen).val.setWidth s.cfg.P ∧
    ∀ v : BitVec s.cfg.N, IsCodeword s.cfg v → v.extractLsb' s.cfg.P s.cfg.K = s.regs.msg → v = t.cw

/-- R124: the codeword of m1 ^ m2 is the XOR of their codewords, and codewords are closed under XOR. -/
def Obligations.EncodeLinear : Prop :=
  (∀ (s : State) (m₁ m₂ : BitVec s.cfg.K), ∃ t₁ t₂ t : Regs s.cfg,
    exec .enc (s.withRegs { s.regs with msg := m₁ }) = .next (s.withRegs t₁) ∧
    exec .enc (s.withRegs { s.regs with msg := m₂ }) = .next (s.withRegs t₂) ∧
    exec .enc (s.withRegs { s.regs with msg := m₁ ^^^ m₂ }) = .next (s.withRegs t) ∧
    t.cw = t₁.cw ^^^ t₂.cw) ∧
  (∀ (c : Config) (v w : BitVec c.N), IsCodeword c v → IsCodeword c w → IsCodeword c (v ^^^ w))

/-- R135: TBLD completes from any CW: each key holds the last position whose flip of CW has that syndrome,
or {0, 0}; TBLV is 1, COLL tells whether two positions had one syndrome, ERR is 0, and nothing else
changes. -/
def Obligations.TbldKeepsLastPositionOfEachSyndrome : Prop :=
  decode 0x04#8 = some .tbld ∧
  ∀ s : State, ∃ (t : Regs s.cfg) (collided : Bool), exec .tbld s = .next (s.withRegs t) ∧
    (∀ key, (∃ i, i < s.cfg.N ∧ synp s.cfg (flipPosition s.cfg s.regs.cw i) = key ∧
        (∀ j, i < j → j < s.cfg.N → synp s.cfg (flipPosition s.cfg s.regs.cw j) ≠ key) ∧
        tableRead t.table key = ⟨true, BitVec.ofNat _ i⟩ ∧
        (tableRead t.table key).pos.toNat = i) ∨
      ((∀ i, i < s.cfg.N → synp s.cfg (flipPosition s.cfg s.regs.cw i) ≠ key) ∧
        tableRead t.table key = ⟨false, 0#_⟩)) ∧
    (collided = true ↔ ∃ i j, i < j ∧ j < s.cfg.N ∧
      synp s.cfg (flipPosition s.cfg s.regs.cw i) = synp s.cfg (flipPosition s.cfg s.regs.cw j)) ∧
    statusFields t.status =
      { statusFields s.regs.status with err := 0#3, tblv := true, coll := collided } ∧
    SameExcept [.status, .tbldata] s.regs t

/-- R136: the syndrome of a codeword with one position flipped is that of the flipped bit alone, x^(N-1-i)
modulo G, whatever the codeword. -/
def Obligations.SingleFlipSyndrome : Prop :=
  ∀ (c : Config) (v : BitVec c.N) (i : Nat), IsCodeword c v → i < c.N →
    synp c (flipPosition c v i) = synp c (1#c.N <<< (c.N - 1 - i)) ∧
    toPolynomial ⟨c.P, synp c (flipPosition c v i)⟩ =
      (Polynomial.X ^ (c.N - 1 - i) : Polynomial (ZMod 2)) %ₘ toPolynomial c.gen

/-- R137: from a codeword TBLD leaves the fixed table: each key the largest position i with x^(N-1-i) mod
G equal to it, or {0, 0}. The table does not depend on the message. -/
def Obligations.TbldBuildsFixedTable : Prop :=
  ∀ s : State, IsCodeword s.cfg s.regs.cw → ∃ t : Regs s.cfg, exec .tbld s = .next (s.withRegs t) ∧
    FixedTable s.cfg t.table ∧
    ∀ u : Vector (Entry s.cfg) (2 ^ s.cfg.P), FixedTable s.cfg u → u = t.table

/-- R138: the zero key is never valid, after a TBLD from a codeword and in every state that meets R41's
invariant, so a DEC whose syndrome is 0 misses. -/
def Obligations.ZeroKeyNeverValid : Prop :=
  (∀ s : State, IsCodeword s.cfg s.regs.cw → ∃ t : Regs s.cfg, exec .tbld s = .next (s.withRegs t) ∧
    (tableRead t.table 0#s.cfg.P).valid = false) ∧
  (∀ s : State, TableInv s.regs → (tableRead s.regs.table 0#s.cfg.P).valid = false) ∧
  (∀ s : State, TableInv s.regs → synp s.cfg s.regs.rx = 0#s.cfg.P → ∃ t : Regs s.cfg,
    exec .dec s = .next (s.withRegs t) ∧ (statusFields t.status).dstat = 2#2)

/-- R139: from a codeword TBLD sets COLL exactly when two exponents below N have equal powers of x modulo
G, exactly when some power x^e with 0 < e < N is 1; without a collision every position has its own
entry. -/
def Obligations.CollReportsCollision : Prop :=
  ∀ s : State, IsCodeword s.cfg s.regs.cw → ∃ t : Regs s.cfg, exec .tbld s = .next (s.withRegs t) ∧
    ((statusFields t.status).coll = true ↔ ∃ j j', j < s.cfg.N ∧ j' < s.cfg.N ∧ j ≠ j' ∧
      powerOfX s.cfg j = powerOfX s.cfg j') ∧
    ((statusFields t.status).coll = true ↔ ∃ e, 0 < e ∧ e < s.cfg.N ∧ powerOfX s.cfg e = 1#s.cfg.P) ∧
    ((statusFields t.status).coll = false → ∀ i, i < s.cfg.N →
      tableRead t.table (positionSyndrome s.cfg i) = ⟨true, BitVec.ofNat _ i⟩)

/-- R139, 95_test_vectors.md V8: with the source's generator x^6 + x + 1 two positions share a syndrome
exactly when N exceeds 63, that is K exceeds 57. -/
def Obligations.SourceGeneratorCollidesBeyond63 : Prop :=
  ∀ (K W : Nat) (hK : 1 ≤ K) (hW : 1 ≤ W),
    Collision ⟨6, 0x43#7, K, W, by decide, by decide, by decide, hK, hW⟩ ↔ 57 < K

/-- R150: DEC completes: SYN is the syndrome of RX; on a valid entry OUT is RX with the entry's position
flipped, IDX the position and DSTAT 1; otherwise OUT is RX, IDX 0 and DSTAT 2; ERR is 0 and nothing else
changes. For a valid entry whose position is N or more, which no run has, N-1-pos stops at 0: the model's
choice (log 8). -/
def Obligations.DecCorrectsOrReportsUncorrectable : Prop :=
  decode 0x05#8 = some .dec ∧
  ∀ s : State, ∃ t : Regs s.cfg, exec .dec s = .next (s.withRegs t) ∧
    t.syn = (modp ⟨s.cfg.N, s.regs.rx⟩ ⟨s.cfg.P + 1, s.cfg.G⟩).val.setWidth s.cfg.P ∧
    ((tableRead s.regs.table t.syn).valid = true →
      t.out = s.regs.rx ^^^ (1#s.cfg.N <<< (s.cfg.N - 1 - (tableRead s.regs.table t.syn).pos.toNat)) ∧
      t.idx = (tableRead s.regs.table t.syn).pos ∧
      statusFields t.status = { statusFields s.regs.status with err := 0#3, dstat := 1#2 }) ∧
    ((tableRead s.regs.table t.syn).valid = false →
      t.out = s.regs.rx ∧ t.idx = 0#_ ∧
      statusFields t.status = { statusFields s.regs.status with err := 0#3, dstat := 2#2 }) ∧
    SameExcept [.status, .syn, .out, .idx] s.regs t ∧ t.table = s.regs.table

/-! ### The code: correction (43_corrector.md) -/

/-- R152: with a built table, flipping position i of a codeword and decoding reports i and restores the
codeword when COLL is 0; with a collision it reports the largest position with the same syndrome, flipped
too when it is another one. -/
def Obligations.SingleErrorRoundTrip : Prop :=
  (∀ (s : State) (v : BitVec s.cfg.N) (i : Nat), TableInv s.regs → CollInv s.regs →
    (statusFields s.regs.status).tblv = true → (statusFields s.regs.status).coll = false →
    IsCodeword s.cfg v → i < s.cfg.N → s.regs.rx = v ^^^ (1#s.cfg.N <<< (s.cfg.N - 1 - i)) →
    ∃ t : Regs s.cfg, exec .dec s = .next (s.withRegs t) ∧ (statusFields t.status).dstat = 1#2 ∧
      t.idx.toNat = i ∧ t.out = v ∧ t.syn = powerOfX s.cfg (s.cfg.N - 1 - i)) ∧
  (∀ (s : State) (v : BitVec s.cfg.N) (i m : Nat), TableInv s.regs →
    (statusFields s.regs.status).tblv = true → IsCodeword s.cfg v → i ≤ m → m < s.cfg.N →
    positionSyndrome s.cfg m = positionSyndrome s.cfg i →
    (∀ j, m < j → j < s.cfg.N → positionSyndrome s.cfg j ≠ positionSyndrome s.cfg i) →
    s.regs.rx = flipPosition s.cfg v i →
    ∃ t : Regs s.cfg, exec .dec s = .next (s.withRegs t) ∧ (statusFields t.status).dstat = 1#2 ∧
      t.idx.toNat = m ∧ t.syn = powerOfX s.cfg (s.cfg.N - 1 - i) ∧ (m = i → t.out = v) ∧
      (m ≠ i → t.out = flipPosition s.cfg (flipPosition s.cfg v i) m))

/-- R153: decoding a codeword misses, whatever the table's history: SYN 0, DSTAT 2, OUT = RX, IDX 0. -/
def Obligations.NoErrorWordMisses : Prop :=
  ∀ s : State, TableInv s.regs → IsCodeword s.cfg s.regs.rx → ∃ t : Regs s.cfg,
    exec .dec s = .next (s.withRegs t) ∧ t.syn = 0#_ ∧ (statusFields t.status).dstat = 2#2 ∧
    (statusFields t.status).err = 0#3 ∧ t.out = s.regs.rx ∧ t.idx = 0#_

/-- R154: the syndrome of a codeword with an error pattern e is the pattern's own; DEC misses when it is no
valid key, flips the entry's position when it is, and gives SYN 0 and UNCORRECTABLE when e is itself a
codeword. -/
def Obligations.MultiBitErrorOutcomes : Prop :=
  ∀ (s : State) (v e : BitVec s.cfg.N), TableInv s.regs → IsCodeword s.cfg v → s.regs.rx = v ^^^ e →
    ∃ t : Regs s.cfg, exec .dec s = .next (s.withRegs t) ∧ t.syn = synp s.cfg e ∧
      ((tableRead s.regs.table (synp s.cfg e)).valid = false →
        (statusFields t.status).dstat = 2#2 ∧ t.out = s.regs.rx) ∧
      ((tableRead s.regs.table (synp s.cfg e)).valid = true → (statusFields t.status).dstat = 1#2 ∧
        t.out = flipPosition s.cfg (v ^^^ e) (tableRead s.regs.table (synp s.cfg e)).pos.toNat) ∧
      (IsCodeword s.cfg e → t.syn = 0#_ ∧ (statusFields t.status).dstat = 2#2 ∧ IsCodeword s.cfg t.out)

/-- R155: while TBLV is 0 every DEC misses, with SYN still the true syndrome. -/
def Obligations.UnbuiltTableAlwaysMisses : Prop :=
  ∀ s : State, TableInv s.regs → (statusFields s.regs.status).tblv = false → ∃ t : Regs s.cfg,
    exec .dec s = .next (s.withRegs t) ∧ (statusFields t.status).dstat = 2#2 ∧ t.out = s.regs.rx ∧
    t.idx = 0#_ ∧ t.syn = synp s.cfg s.regs.rx

/-! ### STATUS and whole-machine rules -/

/-- R34: the STATUS word is its fields at the bits of the table. -/
def Obligations.StatusWordIsItsFields : Prop :=
  ∀ st : BitVec 16, st.toNat = (statusFields st).err.toNat + 8 * (statusFields st).errs.toNat +
    16 * (statusFields st).dstat.toNat + 64 * (statusFields st).tblv.toNat +
    128 * (statusFields st).coll.toNat + 256 * (statusFields st).reserved.toNat

/-- R35: every command writes ERR, with a code from 0 to 3; an access that is no command leaves it, but a
reset. -/
def Obligations.ErrWrittenByEveryCommand : Prop :=
  (∀ (s : State) (w : BitVec 8), NextIsCommand s w → ∃ t : State, step s = .next t ∧
    ((statusFields t.regs.status).err = 0#3 ∨
     ((statusFields t.regs.status).err = 1#3 ∧ decode w = none) ∨
     ((statusFields t.regs.status).err = 2#3 ∧ (w = 0x01#8 ∨ w = 0x02#8)) ∨
     ((statusFields t.regs.status).err = 3#3 ∧ w = 0x02#8))) ∧
  (∀ s : State, (∀ w, ¬ NextIsCommand s w) → ¬ NextIsReset s → ∃ t : State, step s = .next t ∧
    t.regs.status = s.regs.status)

/-- R36: ERRS is set by every failing command, and only a reset clears it. -/
def Obligations.ErrsStickyUntilReset : Prop :=
  (∀ (s t : State) (w : BitVec 8), NextIsCommand s w → step s = .next t →
    (statusFields t.regs.status).err ≠ 0#3 → (statusFields t.regs.status).errs = true) ∧
  (∀ s t : State, step s = .next t → ¬ NextIsReset s → ¬ NoFailure s → ¬ NoFailure t) ∧
  (∀ s t : State, step s = .next t → NoFailure s → ¬ NoFailure t →
    ∃ w, NextIsCommand s w ∧ (statusFields t.regs.status).err ≠ 0#3)

/-- R37: each DEC leaves DSTAT 1 or 2; nothing else but a reset changes it. -/
def Obligations.DstatWrittenByDecOnly : Prop :=
  (∀ s : State, NextIsCommand s 0x05#8 → ∃ t : State, step s = .next t ∧
    ((statusFields t.regs.status).dstat = 1#2 ∨ (statusFields t.regs.status).dstat = 2#2)) ∧
  (∀ s t : State, step s = .next t → ¬ NextIsCommand s 0x05#8 → ¬ NextIsReset s →
    (statusFields t.regs.status).dstat = (statusFields s.regs.status).dstat) ∧
  (∀ s t : State, step s = .next t → NextIsReset s → (statusFields t.regs.status).dstat = 0#2)

/-- R38: each TBLD sets TBLV; only TBLD sets it and only a reset clears it. -/
def Obligations.TblvSetByTbldUntilReset : Prop :=
  (∀ s : State, NextIsCommand s 0x04#8 → ∃ t : State, step s = .next t ∧
    (statusFields t.regs.status).tblv = true) ∧
  (∀ s t : State, step s = .next t → ¬ NextIsCommand s 0x04#8 → ¬ NextIsReset s →
    (statusFields t.regs.status).tblv = (statusFields s.regs.status).tblv) ∧
  (∀ s t : State, step s = .next t → NextIsReset s → (statusFields t.regs.status).tblv = false)

/-- R181: a command that ends with an error has changed STATUS.ERR and STATUS.ERRS and nothing else. -/
def Obligations.FailingCommandWritesNothing : Prop :=
  ∀ (s t : State) (w : BitVec 8), NextIsCommand s w → step s = .next t →
    (statusFields t.regs.status).err ≠ 0#3 →
    ∃ r : Regs s.cfg, t = ({ s with port := s.port.tail } : State).withRegs r ∧
      statusFields r.status =
        { statusFields s.regs.status with err := (statusFields t.regs.status).err, errs := true } ∧
      SameExcept [.status] s.regs r ∧ r.table = s.regs.table

/-- R21, R73: no command writes an operand register: OPA, LENA, OPB, LENB, MSG, RX and TBLKEY are the
host's alone, and the host's side of the port is untouched. -/
def Obligations.CommandsKeepHostRegisters : Prop :=
  ∀ (s : State) (i : Instr), ∃ t : Regs s.cfg, exec i s = .next (s.withRegs t) ∧
    t.opa = s.regs.opa ∧ t.lena = s.regs.lena ∧ t.opb = s.regs.opb ∧ t.lenb = s.regs.lenb ∧
    t.msg = s.regs.msg ∧ t.rx = s.regs.rx ∧ t.tblkey = s.regs.tblkey

/-- R21: every read-only register has the writers of the register table: a step that changes what it reads
is a reset or a CMD write of one of those commands; TBLDATA, a view of the table at TBLKEY (R32), changes
only at a reset, a TBLD (R33) or a host write of TBLKEY. -/
def Obligations.ResultRegistersHaveTheirWriters : Prop :=
  ∀ s t : State, step s = .next t → ¬ NextIsReset s →
    (hostRead t 0x01#5 ≠ hostRead s 0x01#5 → ∃ w, NextIsCommand s w) ∧
    (hostRead t 0x02#5 = hostRead s 0x02#5) ∧
    (hostRead t 0x07#5 ≠ hostRead s 0x07#5 → NextIsCommand s 0x01#8 ∨ NextIsCommand s 0x02#8) ∧
    (hostRead t 0x08#5 ≠ hostRead s 0x08#5 → NextIsCommand s 0x01#8 ∨ NextIsCommand s 0x02#8) ∧
    (hostRead t 0x0A#5 ≠ hostRead s 0x0A#5 → NextIsCommand s 0x03#8) ∧
    (hostRead t 0x0C#5 ≠ hostRead s 0x0C#5 → NextIsCommand s 0x05#8) ∧
    (hostRead t 0x0D#5 ≠ hostRead s 0x0D#5 → NextIsCommand s 0x05#8) ∧
    (hostRead t 0x0E#5 ≠ hostRead s 0x0E#5 → NextIsCommand s 0x05#8) ∧
    (hostRead t 0x10#5 ≠ hostRead s 0x10#5 → NextIsCommand s 0x04#8 ∨
      ∃ v rest, s.port = .write 0x0F#5 v :: rest)

/-- R24: the bits of OPA at and above LENA and of OPB at and above LENB are ignored by every command and
stay as stored. -/
def Obligations.IgnoredOperandBits : Prop :=
  ∀ (s : State) (i : Instr) (a b : BitVec s.cfg.W),
    (∀ j, j < s.regs.lena.toNat → a.getLsbD j = s.regs.opa.getLsbD j) →
    (∀ j, j < s.regs.lenb.toNat → b.getLsbD j = s.regs.opb.getLsbD j) →
    ∃ t : Regs s.cfg, exec i s = .next (s.withRegs t) ∧
      exec i (s.withRegs { s.regs with opa := a, opb := b }) =
        .next (s.withRegs { t with opa := a, opb := b })

/-! ### Invariants of every step -/

/-- R34: reserved STATUS bits stay 0, ERR stays a code of R180, DSTAT is never 3, and an error in ERR is
recorded in ERRS. -/
def Obligations.StatusStaysLegal : Prop :=
  ∀ s t : State, StatusLegal s.regs → ErrRecorded s.regs → step s = .next t →
    StatusLegal t.regs ∧ ErrRecorded t.regs

/-- R25: LENR stays a length RES can hold, and the bits of RES at and above it stay 0. -/
def Obligations.ResultStaysZeroAboveLength : Prop :=
  ∀ s t : State, ResultZeroAbove s.regs → step s = .next t → ResultZeroAbove t.regs

/-- R40: CW stays divisible by G. -/
def Obligations.CodewordStaysDivisible : Prop :=
  ∀ s t : State, IsCodeword s.cfg s.regs.cw → step s = .next t → IsCodeword t.cfg t.regs.cw

/-- R41: the table stays all invalid with TBLV 0, or the fixed table with TBLV 1. -/
def Obligations.TableStaysFixed : Prop :=
  ∀ s t : State, IsCodeword s.cfg s.regs.cw → TableInv s.regs → step s = .next t → TableInv t.regs

/-- Every invariant of the core together is kept by every step. -/
def Obligations.RunInvariantKept : Prop :=
  ∀ s t : State, RunInv s.regs → step s = .next t → RunInv t.regs

/-- R212: the reset state of every configuration meets the invariants, `State.reset` among them. -/
def Obligations.ResetMeetsRunInvariant : Prop :=
  (∀ c : Config, RunInv (Regs.reset c)) ∧ RunInv State.reset.regs

/-! ### Order and repetition of commands -/

/-- R221: from a codeword in CW, ENC then TBLD and TBLD then ENC end in the same state. -/
def Obligations.EncodeAndBuildCommute : Prop :=
  ∀ s : State, IsCodeword s.cfg s.regs.cw → ∃ a b t : State,
    exec .enc s = .next a ∧ exec .tbld a = .next t ∧ exec .tbld s = .next b ∧ exec .enc b = .next t

/-- R170, R120 (5), R135 (3), R150 (5): NOP, ENC, TBLD and DEC run a second time change nothing. -/
def Obligations.RepeatedCommandsChangeNothing : Prop :=
  ∀ (s : State) (i : Instr), i = .nop ∨ i = .enc ∨ i = .tbld ∨ i = .dec →
    ∃ t : State, exec i s = .next t ∧ exec i t = .next t

/-! ### The pure functions (40_gf2_arith.md) -/

/-- R100: MULP's length and coefficients. -/
def Obligations.MulpIsXorConvolution : Prop :=
  ∀ a b : Poly, 1 ≤ a.len → 1 ≤ b.len → (mulp a b).len = a.len + b.len - 1 ∧
    ∀ k, (mulp a b).coeff k = true ↔ convolutionBit a.len a.val b.len b.val k

/-- R100's MULP is the product of polynomials over GF(2), and so obeys the degree law (R107 (2)). -/
def Obligations.MulpIsPolynomialProduct : Prop :=
  ∀ a b : Poly, 1 ≤ a.len → 1 ≤ b.len →
    toPolynomial (mulp a b) = toPolynomial a * toPolynomial b ∧
    (toPolynomial a ≠ 0 → toPolynomial b ≠ 0 → toPolynomial (mulp a b) ≠ 0 ∧
      (toPolynomial (mulp a b)).natDegree = (toPolynomial a).natDegree + (toPolynomial b).natDegree)

/-- R107 (3): MULP is commutative and associative, and distributes over XOR of equal-length values. -/
def Obligations.MulpRingLaws : Prop :=
  (∀ a b : Poly, 1 ≤ a.len → 1 ≤ b.len → mulp a b = mulp b a) ∧
  (∀ a b d : Poly, 1 ≤ a.len → 1 ≤ b.len → 1 ≤ d.len → mulp (mulp a b) d = mulp a (mulp b d)) ∧
  (∀ (a : Poly) (n : Nat) (u v : BitVec n), 1 ≤ a.len → 1 ≤ n →
    (mulp a ⟨n, u ^^^ v⟩).toNat = (mulp a ⟨n, u⟩).toNat ^^^ (mulp a ⟨n, v⟩).toNat)

/-- R101: MODP is the long division step for step: while the dividend is as long as the divisor, XOR the
divisor aligned at the leading term when that term is 1, and drop the leading term. -/
def Obligations.ModpFollowsLongDivision : Prop :=
  ∀ b : Poly, 1 ≤ b.len →
    (∀ (n : Nat) (d : BitVec n), n < b.len → modp ⟨n, d⟩ b = ⟨n, d⟩) ∧
    (∀ (n : Nat) (d : BitVec (n + 1)), b.len ≤ n + 1 → ∃ e : BitVec n,
      modp ⟨n + 1, d⟩ b = modp ⟨n, e⟩ b ∧
      (d.getLsbD n = false → ∀ j, j < n → e.getLsbD j = d.getLsbD j) ∧
      (d.getLsbD n = true → ∀ j, j < n → e.getLsbD j =
        if n + 1 - b.len ≤ j then (d.getLsbD j ^^ b.coeff (j - (n + 1 - b.len))) else d.getLsbD j))

/-- R102: MODP's result length, and the dividend unchanged when it is shorter than the divisor. -/
def Obligations.ModpResultLength : Prop :=
  ∀ a b : Poly, 1 ≤ b.len →
    (b.len ≤ a.len → (modp a b).len = b.len - 1) ∧ (a.len < b.len → modp a b = a) ∧
    (b.len = 1 → modp a b = ⟨0, 0#0⟩) ∧ (modp a b).len ≤ b.len - 1

/-- R103: with a leading coefficient 1 MODP is the remainder of polynomial division over GF(2), the unique
polynomial of lower degree congruent to the dividend. -/
def Obligations.ModpIsPolynomialRemainder : Prop :=
  ∀ a b : Poly, 1 ≤ b.len → b.coeff (b.len - 1) = true →
    toPolynomial (modp a b) = toPolynomial a %ₘ toPolynomial b ∧
    (∀ r : Polynomial (ZMod 2), r.degree < ((b.len - 1 : Nat) : WithBot Nat) →
      toPolynomial b ∣ toPolynomial a - r → toPolynomial (modp a b) = r)

/-- R107 (5): with a leading coefficient 1 MODP is linear, and zero exactly when the divisor divides. -/
def Obligations.ModpLinearAndDivides : Prop :=
  ∀ b : Poly, 1 ≤ b.len → b.coeff (b.len - 1) = true →
    (∀ (n : Nat) (u v : BitVec n),
      (modp ⟨n, u ^^^ v⟩ b).toNat = (modp ⟨n, u⟩ b).toNat ^^^ (modp ⟨n, v⟩ b).toNat) ∧
    (∀ a : Poly, polyZero (modp a b) = true ↔ toPolynomial b ∣ toPolynomial a)

/-- R104: polynomial equality is equality of the polynomials the values stand for, blind to leading
zeros. -/
def Obligations.PolynomialEqualityIgnoresLeadingZeros : Prop :=
  (∀ a b : Poly, polyEqual a b = true ↔ toPolynomial a = toPolynomial b) ∧
  (∀ a : Poly, polyZero a = true ↔ toPolynomial a = 0)

/-- R10, R53: the codec is lossless both ways, highest term first, and refuses the empty sequence. -/
def Obligations.CodecIsLossless : Prop :=
  (∀ p : Poly, 1 ≤ p.len → fromSeq (toSeq p) = some p) ∧
  (∀ (l : List Bool) (p : Poly), fromSeq l = some p → toSeq p = l ∧ p.len = l.length) ∧
  fromSeq [] = none ∧
  (∀ (p : Poly) (k : Nat), k < p.len → (toSeq p)[k]? = some (p.coeff (p.len - 1 - k)))

/-- R133: every remainder by G has length P, and Render tells values of one length apart, so the string key
and the P-bit key are the same key. -/
def Obligations.RenderIsInjectiveOnOneLength : Prop :=
  (∀ (c : Config) (v : BitVec c.N), (modp ⟨c.N, v⟩ c.gen).len = c.P) ∧
  (∀ (n : Nat) (u v : BitVec n), render ⟨n, u⟩ = render ⟨n, v⟩ ↔ u = v)

/-! ### Parameters (00_scope.md) -/

/-- R8: parameters elaborate to a core exactly when they meet R7's constraints, and to the core they
name. R8 does not list a G of more than P + 1 bits: its refusal is the model's deduction from R7's width of G
(log 11). -/
def Obligations.InvalidParametersRefused : Prop :=
  (∀ p : Params, p.elaborate.isSome = true ↔
    1 ≤ p.P ∧ p.G < 2 ^ (p.P + 1) ∧ p.G.testBit p.P = true ∧ p.G.testBit 0 = true ∧ 1 ≤ p.K ∧
      p.N = p.K + p.P ∧ 1 ≤ p.W) ∧
  (∀ (p : Params) (c : Config), p.elaborate = some c →
    c.P = p.P ∧ c.G.toNat = p.G ∧ c.K = p.K ∧ c.N = p.N ∧ c.W = p.W) ∧
  (∀ p : Params, p.elaborate.isSome = p.wf)

/-- R7: LW is the least w ≥ 1 with W < 2^w, and IW the least w ≥ 1 with N ≤ 2^w. -/
def Obligations.WidthsAreLeast : Prop :=
  ∀ c : Config, (1 ≤ c.LW ∧ c.W < 2 ^ c.LW ∧ ∀ w, 1 ≤ w → c.W < 2 ^ w → c.LW ≤ w) ∧
    (1 ≤ c.IW ∧ c.N ≤ 2 ^ c.IW ∧ ∀ w, 1 ≤ w → c.N ≤ 2 ^ w → c.IW ≤ w)
end

