-- ==== Sys2Proof/Laws/State.lean ====
section
/-! SUPPORT. One lemma per field per update: what each named update of State and Regs leaves in each
field. -/

namespace Sys2Proof.Machine

variable {c : Config}

@[simp] theorem State.withRegs_cfg (s : State) (r : Regs s.cfg) : (s.withRegs r).cfg = s.cfg := rfl
@[simp] theorem State.withRegs_regs (s : State) (r : Regs s.cfg) : (s.withRegs r).regs = r := rfl
@[simp] theorem State.withRegs_port (s : State) (r : Regs s.cfg) : (s.withRegs r).port = s.port := rfl
@[simp] theorem State.withRegs_replies (s : State) (r : Regs s.cfg) :
    (s.withRegs r).replies = s.replies := rfl

@[simp] theorem Regs.withStatus_status (r : Regs c) (st : BitVec 16) :
    (r.withStatus st).status = st := rfl
@[simp] theorem Regs.withStatus_opa (r : Regs c) (st : BitVec 16) :
    (r.withStatus st).opa = r.opa := rfl
@[simp] theorem Regs.withStatus_lena (r : Regs c) (st : BitVec 16) :
    (r.withStatus st).lena = r.lena := rfl
@[simp] theorem Regs.withStatus_opb (r : Regs c) (st : BitVec 16) :
    (r.withStatus st).opb = r.opb := rfl
@[simp] theorem Regs.withStatus_lenb (r : Regs c) (st : BitVec 16) :
    (r.withStatus st).lenb = r.lenb := rfl
@[simp] theorem Regs.withStatus_res (r : Regs c) (st : BitVec 16) :
    (r.withStatus st).res = r.res := rfl
@[simp] theorem Regs.withStatus_lenr (r : Regs c) (st : BitVec 16) :
    (r.withStatus st).lenr = r.lenr := rfl
@[simp] theorem Regs.withStatus_msg (r : Regs c) (st : BitVec 16) :
    (r.withStatus st).msg = r.msg := rfl
@[simp] theorem Regs.withStatus_cw (r : Regs c) (st : BitVec 16) :
    (r.withStatus st).cw = r.cw := rfl
@[simp] theorem Regs.withStatus_rx (r : Regs c) (st : BitVec 16) :
    (r.withStatus st).rx = r.rx := rfl
@[simp] theorem Regs.withStatus_syn (r : Regs c) (st : BitVec 16) :
    (r.withStatus st).syn = r.syn := rfl
@[simp] theorem Regs.withStatus_out (r : Regs c) (st : BitVec 16) :
    (r.withStatus st).out = r.out := rfl
@[simp] theorem Regs.withStatus_idx (r : Regs c) (st : BitVec 16) :
    (r.withStatus st).idx = r.idx := rfl
@[simp] theorem Regs.withStatus_tblkey (r : Regs c) (st : BitVec 16) :
    (r.withStatus st).tblkey = r.tblkey := rfl
@[simp] theorem Regs.withStatus_table (r : Regs c) (st : BitVec 16) :
    (r.withStatus st).table = r.table := rfl

@[simp] theorem Regs.withResult_status (r : Regs c) (p : Poly) :
    (r.withResult p).status = r.status := rfl
@[simp] theorem Regs.withResult_opa (r : Regs c) (p : Poly) :
    (r.withResult p).opa = r.opa := rfl
@[simp] theorem Regs.withResult_lena (r : Regs c) (p : Poly) :
    (r.withResult p).lena = r.lena := rfl
@[simp] theorem Regs.withResult_opb (r : Regs c) (p : Poly) :
    (r.withResult p).opb = r.opb := rfl
@[simp] theorem Regs.withResult_lenb (r : Regs c) (p : Poly) :
    (r.withResult p).lenb = r.lenb := rfl
@[simp] theorem Regs.withResult_res (r : Regs c) (p : Poly) :
    (r.withResult p).res = p.val.setWidth _ := rfl
@[simp] theorem Regs.withResult_lenr (r : Regs c) (p : Poly) :
    (r.withResult p).lenr = BitVec.ofNat _ p.len := rfl
@[simp] theorem Regs.withResult_msg (r : Regs c) (p : Poly) :
    (r.withResult p).msg = r.msg := rfl
@[simp] theorem Regs.withResult_cw (r : Regs c) (p : Poly) :
    (r.withResult p).cw = r.cw := rfl
@[simp] theorem Regs.withResult_rx (r : Regs c) (p : Poly) :
    (r.withResult p).rx = r.rx := rfl
@[simp] theorem Regs.withResult_syn (r : Regs c) (p : Poly) :
    (r.withResult p).syn = r.syn := rfl
@[simp] theorem Regs.withResult_out (r : Regs c) (p : Poly) :
    (r.withResult p).out = r.out := rfl
@[simp] theorem Regs.withResult_idx (r : Regs c) (p : Poly) :
    (r.withResult p).idx = r.idx := rfl
@[simp] theorem Regs.withResult_tblkey (r : Regs c) (p : Poly) :
    (r.withResult p).tblkey = r.tblkey := rfl
@[simp] theorem Regs.withResult_table (r : Regs c) (p : Poly) :
    (r.withResult p).table = r.table := rfl

@[simp] theorem Regs.withCodeword_status (r : Regs c) (v : BitVec c.N) :
    (r.withCodeword v).status = r.status := rfl
@[simp] theorem Regs.withCodeword_opa (r : Regs c) (v : BitVec c.N) :
    (r.withCodeword v).opa = r.opa := rfl
@[simp] theorem Regs.withCodeword_lena (r : Regs c) (v : BitVec c.N) :
    (r.withCodeword v).lena = r.lena := rfl
@[simp] theorem Regs.withCodeword_opb (r : Regs c) (v : BitVec c.N) :
    (r.withCodeword v).opb = r.opb := rfl
@[simp] theorem Regs.withCodeword_lenb (r : Regs c) (v : BitVec c.N) :
    (r.withCodeword v).lenb = r.lenb := rfl
@[simp] theorem Regs.withCodeword_res (r : Regs c) (v : BitVec c.N) :
    (r.withCodeword v).res = r.res := rfl
@[simp] theorem Regs.withCodeword_lenr (r : Regs c) (v : BitVec c.N) :
    (r.withCodeword v).lenr = r.lenr := rfl
@[simp] theorem Regs.withCodeword_msg (r : Regs c) (v : BitVec c.N) :
    (r.withCodeword v).msg = r.msg := rfl
@[simp] theorem Regs.withCodeword_cw (r : Regs c) (v : BitVec c.N) :
    (r.withCodeword v).cw = v := rfl
@[simp] theorem Regs.withCodeword_rx (r : Regs c) (v : BitVec c.N) :
    (r.withCodeword v).rx = r.rx := rfl
@[simp] theorem Regs.withCodeword_syn (r : Regs c) (v : BitVec c.N) :
    (r.withCodeword v).syn = r.syn := rfl
@[simp] theorem Regs.withCodeword_out (r : Regs c) (v : BitVec c.N) :
    (r.withCodeword v).out = r.out := rfl
@[simp] theorem Regs.withCodeword_idx (r : Regs c) (v : BitVec c.N) :
    (r.withCodeword v).idx = r.idx := rfl
@[simp] theorem Regs.withCodeword_tblkey (r : Regs c) (v : BitVec c.N) :
    (r.withCodeword v).tblkey = r.tblkey := rfl
@[simp] theorem Regs.withCodeword_table (r : Regs c) (v : BitVec c.N) :
    (r.withCodeword v).table = r.table := rfl

@[simp] theorem Regs.withTable_status (r : Regs c) (t : Vector (Entry c) (2 ^ c.P)) (k : Bool) :
    (r.withTable t k).status = setColl (setTblv r.status true) k := rfl
@[simp] theorem Regs.withTable_opa (r : Regs c) (t : Vector (Entry c) (2 ^ c.P)) (k : Bool) :
    (r.withTable t k).opa = r.opa := rfl
@[simp] theorem Regs.withTable_lena (r : Regs c) (t : Vector (Entry c) (2 ^ c.P)) (k : Bool) :
    (r.withTable t k).lena = r.lena := rfl
@[simp] theorem Regs.withTable_opb (r : Regs c) (t : Vector (Entry c) (2 ^ c.P)) (k : Bool) :
    (r.withTable t k).opb = r.opb := rfl
@[simp] theorem Regs.withTable_lenb (r : Regs c) (t : Vector (Entry c) (2 ^ c.P)) (k : Bool) :
    (r.withTable t k).lenb = r.lenb := rfl
@[simp] theorem Regs.withTable_res (r : Regs c) (t : Vector (Entry c) (2 ^ c.P)) (k : Bool) :
    (r.withTable t k).res = r.res := rfl
@[simp] theorem Regs.withTable_lenr (r : Regs c) (t : Vector (Entry c) (2 ^ c.P)) (k : Bool) :
    (r.withTable t k).lenr = r.lenr := rfl
@[simp] theorem Regs.withTable_msg (r : Regs c) (t : Vector (Entry c) (2 ^ c.P)) (k : Bool) :
    (r.withTable t k).msg = r.msg := rfl
@[simp] theorem Regs.withTable_cw (r : Regs c) (t : Vector (Entry c) (2 ^ c.P)) (k : Bool) :
    (r.withTable t k).cw = r.cw := rfl
@[simp] theorem Regs.withTable_rx (r : Regs c) (t : Vector (Entry c) (2 ^ c.P)) (k : Bool) :
    (r.withTable t k).rx = r.rx := rfl
@[simp] theorem Regs.withTable_syn (r : Regs c) (t : Vector (Entry c) (2 ^ c.P)) (k : Bool) :
    (r.withTable t k).syn = r.syn := rfl
@[simp] theorem Regs.withTable_out (r : Regs c) (t : Vector (Entry c) (2 ^ c.P)) (k : Bool) :
    (r.withTable t k).out = r.out := rfl
@[simp] theorem Regs.withTable_idx (r : Regs c) (t : Vector (Entry c) (2 ^ c.P)) (k : Bool) :
    (r.withTable t k).idx = r.idx := rfl
@[simp] theorem Regs.withTable_tblkey (r : Regs c) (t : Vector (Entry c) (2 ^ c.P)) (k : Bool) :
    (r.withTable t k).tblkey = r.tblkey := rfl
@[simp] theorem Regs.withTable_table (r : Regs c) (t : Vector (Entry c) (2 ^ c.P)) (k : Bool) :
    (r.withTable t k).table = t := rfl

@[simp] theorem Regs.withDecode_status (r : Regs c) (y : BitVec c.P) (o : BitVec c.N) (x : BitVec c.IW) (d : DecodeStatus) :
    (r.withDecode y o x d).status = setDstat r.status d := rfl
@[simp] theorem Regs.withDecode_opa (r : Regs c) (y : BitVec c.P) (o : BitVec c.N) (x : BitVec c.IW) (d : DecodeStatus) :
    (r.withDecode y o x d).opa = r.opa := rfl
@[simp] theorem Regs.withDecode_lena (r : Regs c) (y : BitVec c.P) (o : BitVec c.N) (x : BitVec c.IW) (d : DecodeStatus) :
    (r.withDecode y o x d).lena = r.lena := rfl
@[simp] theorem Regs.withDecode_opb (r : Regs c) (y : BitVec c.P) (o : BitVec c.N) (x : BitVec c.IW) (d : DecodeStatus) :
    (r.withDecode y o x d).opb = r.opb := rfl
@[simp] theorem Regs.withDecode_lenb (r : Regs c) (y : BitVec c.P) (o : BitVec c.N) (x : BitVec c.IW) (d : DecodeStatus) :
    (r.withDecode y o x d).lenb = r.lenb := rfl
@[simp] theorem Regs.withDecode_res (r : Regs c) (y : BitVec c.P) (o : BitVec c.N) (x : BitVec c.IW) (d : DecodeStatus) :
    (r.withDecode y o x d).res = r.res := rfl
@[simp] theorem Regs.withDecode_lenr (r : Regs c) (y : BitVec c.P) (o : BitVec c.N) (x : BitVec c.IW) (d : DecodeStatus) :
    (r.withDecode y o x d).lenr = r.lenr := rfl
@[simp] theorem Regs.withDecode_msg (r : Regs c) (y : BitVec c.P) (o : BitVec c.N) (x : BitVec c.IW) (d : DecodeStatus) :
    (r.withDecode y o x d).msg = r.msg := rfl
@[simp] theorem Regs.withDecode_cw (r : Regs c) (y : BitVec c.P) (o : BitVec c.N) (x : BitVec c.IW) (d : DecodeStatus) :
    (r.withDecode y o x d).cw = r.cw := rfl
@[simp] theorem Regs.withDecode_rx (r : Regs c) (y : BitVec c.P) (o : BitVec c.N) (x : BitVec c.IW) (d : DecodeStatus) :
    (r.withDecode y o x d).rx = r.rx := rfl
@[simp] theorem Regs.withDecode_syn (r : Regs c) (y : BitVec c.P) (o : BitVec c.N) (x : BitVec c.IW) (d : DecodeStatus) :
    (r.withDecode y o x d).syn = y := rfl
@[simp] theorem Regs.withDecode_out (r : Regs c) (y : BitVec c.P) (o : BitVec c.N) (x : BitVec c.IW) (d : DecodeStatus) :
    (r.withDecode y o x d).out = o := rfl
@[simp] theorem Regs.withDecode_idx (r : Regs c) (y : BitVec c.P) (o : BitVec c.N) (x : BitVec c.IW) (d : DecodeStatus) :
    (r.withDecode y o x d).idx = x := rfl
@[simp] theorem Regs.withDecode_tblkey (r : Regs c) (y : BitVec c.P) (o : BitVec c.N) (x : BitVec c.IW) (d : DecodeStatus) :
    (r.withDecode y o x d).tblkey = r.tblkey := rfl
@[simp] theorem Regs.withDecode_table (r : Regs c) (y : BitVec c.P) (o : BitVec c.N) (x : BitVec c.IW) (d : DecodeStatus) :
    (r.withDecode y o x d).table = r.table := rfl

@[simp] theorem Regs.done_status (r : Regs c) :
    (r.done).status = setErr r.status .none := rfl
@[simp] theorem Regs.done_opa (r : Regs c) :
    (r.done).opa = r.opa := rfl
@[simp] theorem Regs.done_lena (r : Regs c) :
    (r.done).lena = r.lena := rfl
@[simp] theorem Regs.done_opb (r : Regs c) :
    (r.done).opb = r.opb := rfl
@[simp] theorem Regs.done_lenb (r : Regs c) :
    (r.done).lenb = r.lenb := rfl
@[simp] theorem Regs.done_res (r : Regs c) :
    (r.done).res = r.res := rfl
@[simp] theorem Regs.done_lenr (r : Regs c) :
    (r.done).lenr = r.lenr := rfl
@[simp] theorem Regs.done_msg (r : Regs c) :
    (r.done).msg = r.msg := rfl
@[simp] theorem Regs.done_cw (r : Regs c) :
    (r.done).cw = r.cw := rfl
@[simp] theorem Regs.done_rx (r : Regs c) :
    (r.done).rx = r.rx := rfl
@[simp] theorem Regs.done_syn (r : Regs c) :
    (r.done).syn = r.syn := rfl
@[simp] theorem Regs.done_out (r : Regs c) :
    (r.done).out = r.out := rfl
@[simp] theorem Regs.done_idx (r : Regs c) :
    (r.done).idx = r.idx := rfl
@[simp] theorem Regs.done_tblkey (r : Regs c) :
    (r.done).tblkey = r.tblkey := rfl
@[simp] theorem Regs.done_table (r : Regs c) :
    (r.done).table = r.table := rfl

@[simp] theorem Regs.fail_status (r : Regs c) (e : ErrCode) :
    (r.fail e).status = setErrs (setErr r.status e) true := rfl
@[simp] theorem Regs.fail_opa (r : Regs c) (e : ErrCode) :
    (r.fail e).opa = r.opa := rfl
@[simp] theorem Regs.fail_lena (r : Regs c) (e : ErrCode) :
    (r.fail e).lena = r.lena := rfl
@[simp] theorem Regs.fail_opb (r : Regs c) (e : ErrCode) :
    (r.fail e).opb = r.opb := rfl
@[simp] theorem Regs.fail_lenb (r : Regs c) (e : ErrCode) :
    (r.fail e).lenb = r.lenb := rfl
@[simp] theorem Regs.fail_res (r : Regs c) (e : ErrCode) :
    (r.fail e).res = r.res := rfl
@[simp] theorem Regs.fail_lenr (r : Regs c) (e : ErrCode) :
    (r.fail e).lenr = r.lenr := rfl
@[simp] theorem Regs.fail_msg (r : Regs c) (e : ErrCode) :
    (r.fail e).msg = r.msg := rfl
@[simp] theorem Regs.fail_cw (r : Regs c) (e : ErrCode) :
    (r.fail e).cw = r.cw := rfl
@[simp] theorem Regs.fail_rx (r : Regs c) (e : ErrCode) :
    (r.fail e).rx = r.rx := rfl
@[simp] theorem Regs.fail_syn (r : Regs c) (e : ErrCode) :
    (r.fail e).syn = r.syn := rfl
@[simp] theorem Regs.fail_out (r : Regs c) (e : ErrCode) :
    (r.fail e).out = r.out := rfl
@[simp] theorem Regs.fail_idx (r : Regs c) (e : ErrCode) :
    (r.fail e).idx = r.idx := rfl
@[simp] theorem Regs.fail_tblkey (r : Regs c) (e : ErrCode) :
    (r.fail e).tblkey = r.tblkey := rfl
@[simp] theorem Regs.fail_table (r : Regs c) (e : ErrCode) :
    (r.fail e).table = r.table := rfl

end Sys2Proof.Machine
end

