-- ==== Sys2Proof/Laws/Flags.lean ====
section
/-! SUPPORT. STATUS: each field read back after each field's write, and so each write on the fields taken
together. -/

namespace Sys2Proof.Machine

/-- The one fact about a field write: the written bits are the value's, the others are kept. -/
theorem getLsbD_setField (st : BitVec 16) (lo w : Nat) (v : BitVec w) (i : Nat) (hi : i < 16) :
    (setField st lo v).getLsbD i = if lo ≤ i ∧ i < lo + w then v.getLsbD (i - lo) else st.getLsbD i := by
  unfold setField
  simp only [BitVec.getLsbD_or, BitVec.getLsbD_and, BitVec.getLsbD_not, BitVec.getLsbD_shiftLeft,
    BitVec.getLsbD_setWidth, BitVec.getLsbD_allOnes, hi, decide_true, Bool.true_and]
  by_cases h1 : lo ≤ i
  · by_cases h2 : i < lo + w
    · have h3 : i - lo < w := by omega
      have h4 : i - lo < 16 := by omega
      simp [h1, h2, h3, h4, Nat.not_lt.mpr h1]
    · have h3 : ¬ i - lo < w := by omega
      simp [h1, h2, h3, Nat.not_lt.mpr h1, BitVec.getLsbD_of_ge v (i - lo) (by omega)]
  · simp [h1, Nat.lt_of_not_le h1]

/-- `getLsbD_setField` in the form simp brings a single bit to. -/
theorem getElem_setField (st : BitVec 16) (lo w : Nat) (v : BitVec w) (i : Nat) (hi : i < 16) :
    (setField st lo v)[i] = if lo ≤ i ∧ i < lo + w then v.getLsbD (i - lo) else st[i] := by
  have h := getLsbD_setField st lo w v i hi
  rwa [BitVec.getLsbD_eq_getElem hi, BitVec.getLsbD_eq_getElem hi] at h

/-- Reading the field just written. -/
theorem extract_setField_same (st : BitVec 16) (lo w : Nat) (v : BitVec w) (h : lo + w ≤ 16) :
    (setField st lo v).extractLsb' lo w = v := by
  apply BitVec.eq_of_getLsbD_eq
  intro i hi
  rw [BitVec.getLsbD_extractLsb', getLsbD_setField _ _ _ _ _ (by omega)]
  simp [hi]

/-- Reading a field that the write does not touch. -/
theorem extract_setField_other (st : BitVec 16) (lo w lo' w' : Nat) (v : BitVec w)
    (h : lo' + w' ≤ 16) (hd : lo' + w' ≤ lo ∨ lo + w ≤ lo') :
    (setField st lo v).extractLsb' lo' w' = st.extractLsb' lo' w' := by
  apply BitVec.eq_of_getLsbD_eq
  intro i hi
  rw [BitVec.getLsbD_extractLsb', BitVec.getLsbD_extractLsb', getLsbD_setField _ _ _ _ _ (by omega)]
  rw [if_neg (by omega)]

@[simp] theorem statusFields_setErr (st : BitVec 16) (e : ErrCode) :
    statusFields (setErr st e) = { statusFields st with err := e.code } := by
  simp [statusFields, setErr, statusErr, statusErrs, statusDstat, statusTblv, statusColl,
    statusReserved, extract_setField_same, extract_setField_other, getElem_setField]

@[simp] theorem statusFields_setErrs (st : BitVec 16) (b : Bool) :
    statusFields (setErrs st b) = { statusFields st with errs := b } := by
  simp [statusFields, setErrs, statusErr, statusErrs, statusDstat, statusTblv, statusColl,
    statusReserved, extract_setField_other, getElem_setField]

@[simp] theorem statusFields_setDstat (st : BitVec 16) (d : DecodeStatus) :
    statusFields (setDstat st d) = { statusFields st with dstat := d.code } := by
  simp [statusFields, setDstat, statusErr, statusErrs, statusDstat, statusTblv, statusColl,
    statusReserved, extract_setField_same, extract_setField_other, getElem_setField]

@[simp] theorem statusFields_setTblv (st : BitVec 16) (b : Bool) :
    statusFields (setTblv st b) = { statusFields st with tblv := b } := by
  simp [statusFields, setTblv, statusErr, statusErrs, statusDstat, statusTblv, statusColl,
    statusReserved, extract_setField_other, getElem_setField]

@[simp] theorem statusFields_setColl (st : BitVec 16) (b : Bool) :
    statusFields (setColl st b) = { statusFields st with coll := b } := by
  simp [statusFields, setColl, statusErr, statusErrs, statusDstat, statusTblv, statusColl,
    statusReserved, extract_setField_other, getElem_setField]

end Sys2Proof.Machine
end

