-- ==== Sys2Proof/Laws/Gf2.lean ====
section
/-! SUPPORT. The polynomial functions bit by bit: the rows of MULP and the iterations of MODP. -/

namespace Sys2Proof

theorem Poly.eq_of_coeff {p q : Poly} (hl : p.len = q.len) (h : ∀ j, p.coeff j = q.coeff j) : p = q := by
  obtain ⟨n, v⟩ := p
  obtain ⟨m, w⟩ := q
  obtain rfl : n = m := hl
  congr 1
  exact BitVec.eq_of_getLsbD_eq fun i _ => h i

theorem Poly.coeff_of_ge {p : Poly} {j : Nat} (h : p.len ≤ j) : p.coeff j = false :=
  BitVec.getLsbD_of_ge _ _ h

end Sys2Proof

namespace Sys2Proof.Machine

@[simp] theorem mulp_len (a b : Poly) : (mulp a b).len = a.len + b.len - 1 := rfl

/-- One row of MULP on bit `k`. -/
theorem getLsbD_mulpRow (a b : Poly) (n : Nat) (acc : BitVec n) (j k : Nat) (hk : k < n) :
    (mulpRow a b n acc j).getLsbD k =
      (acc.getLsbD k ^^ (b.coeff j && (decide (j ≤ k) && a.coeff (k - j)))) := by
  unfold mulpRow
  cases hb : b.coeff j with
  | false => simp
  | true =>
    rw [if_pos rfl, BitVec.getLsbD_xor, BitVec.getLsbD_shiftLeft, BitVec.getLsbD_setWidth]
    by_cases hj : j ≤ k
    · simp [hj, hk, show k - j < n by omega, Poly.coeff]
    · simp [hj, Nat.lt_of_not_le hj]

/-- The first `m` rows of MULP on bit `k`: the parity of the rows that reach it. -/
theorem getLsbD_mulp_rows (a b : Poly) (n m k : Nat) (hk : k < n) :
    ((List.range m).foldl (mulpRow a b n) 0#n).getLsbD k = true ↔
      Odd ((Finset.range m).filter fun j => b.coeff j = true ∧ j ≤ k ∧ a.coeff (k - j) = true).card := by
  induction m with
  | zero => simp
  | succ m ih =>
    rw [List.range_succ, List.foldl_append, List.foldl_cons, List.foldl_nil, getLsbD_mulpRow _ _ _ _ _ _ hk,
      Finset.range_add_one, Finset.filter_insert]
    by_cases h : b.coeff m = true ∧ m ≤ k ∧ a.coeff (k - m) = true
    · rw [if_pos h, Finset.card_insert_of_notMem (by simp), Nat.odd_add_one, ← ih]
      simp [h]
    · rw [if_neg h, ← ih]
      have : (b.coeff m && (decide (m ≤ k) && a.coeff (k - m))) = false := by
        simpa [not_and] using h
      rw [this, Bool.xor_false]

/-- Bit `j` after one iteration of MODP: the aligned divisor is XORed in when the leading term is there. -/
theorem getLsbD_modpStep (b : Poly) (n : Nat) (d : BitVec (n + 1)) (j : Nat) (hj : j < n) :
    (modpStep b n d).getLsbD j =
      (d.getLsbD j ^^ (d.getLsbD n && (decide (n + 1 - b.len ≤ j) && b.coeff (j - (n + 1 - b.len))))) := by
  unfold modpStep
  have h1 : j < n + 1 := by omega
  rw [BitVec.getLsbD_setWidth]
  cases hd : d.getLsbD n with
  | false => simp [hj]
  | true =>
    rw [if_pos rfl, BitVec.getLsbD_xor, BitVec.getLsbD_shiftLeft, BitVec.getLsbD_setWidth]
    by_cases ha : n + 1 - b.len ≤ j
    · rw [decide_eq_true ha]
      simp [hj, h1, Poly.coeff, show j - (n + 1 - b.len) < n + 1 by omega, Nat.not_lt.mpr ha]
    · rw [decide_eq_false ha]
      simp [hj, Nat.lt_of_not_le ha]

/-- MODP while the dividend is as long as the divisor. -/
theorem modpLoop_succ (b : Poly) (n : Nat) (d : BitVec (n + 1)) (h : b.len ≤ n + 1) :
    modpLoop b (n + 1) d = modpLoop b n (modpStep b n d) := by
  simp [modpLoop, h]

/-- MODP stops at the first length below the divisor's. -/
theorem modpLoop_stop (b : Poly) (n : Nat) (d : BitVec n) (h : n < b.len) :
    modpLoop b n d = ⟨n, d⟩ := by
  cases n with
  | zero => rfl
  | succ n => simp [modpLoop, h]

/-- MODP's result length depends on the two lengths only. -/
theorem modpLoop_len (b : Poly) (hb : 1 ≤ b.len) (n : Nat) (d : BitVec n) :
    (modpLoop b n d).len = min n (b.len - 1) := by
  induction n with
  | zero => simp [modpLoop]
  | succ n ih =>
    by_cases h : b.len ≤ n + 1
    · rw [modpLoop_succ b n d h, ih]
      omega
    · rw [modpLoop_stop b (n + 1) d (by omega)]
      simp only
      omega

theorem modpStep_xor (b : Poly) (n : Nat) (d e : BitVec (n + 1)) :
    modpStep b n (d ^^^ e) = modpStep b n d ^^^ modpStep b n e := by
  apply BitVec.eq_of_getLsbD_eq
  intro j hj
  simp only [getLsbD_modpStep _ _ _ _ hj, BitVec.getLsbD_xor]
  generalize (decide (n + 1 - b.len ≤ j) && b.coeff (j - (n + 1 - b.len))) = x
  cases d.getLsbD n <;> cases e.getLsbD n <;> cases d.getLsbD j <;> cases e.getLsbD j <;> cases x <;> rfl

/-- The loop is linear in its dividend, coefficient by coefficient. -/
theorem coeff_modpLoop_xor (b : Poly) (n : Nat) (d e : BitVec n) (j : Nat) :
    (modpLoop b n (d ^^^ e)).coeff j = ((modpLoop b n d).coeff j ^^ (modpLoop b n e).coeff j) := by
  induction n with
  | zero => simp [modpLoop, Poly.coeff]
  | succ n ih =>
    by_cases h : b.len ≤ n + 1
    · simp only [modpLoop_succ b n _ h, modpStep_xor, ih]
    · have hs : ∀ v, modpLoop b (n + 1) v = ⟨n + 1, v⟩ := fun v => modpLoop_stop b (n + 1) v (by omega)
      rw [hs, hs, hs]
      exact BitVec.getLsbD_xor

/-- A dividend with nothing at or above the divisor's degree is only shortened. -/
theorem coeff_modpLoop_small (b : Poly) (n : Nat) (d : BitVec n)
    (h : ∀ j, b.len - 1 ≤ j → d.getLsbD j = false) (j : Nat) :
    (modpLoop b n d).coeff j = d.getLsbD j := by
  induction n with
  | zero => rfl
  | succ n ih =>
    by_cases hl : b.len ≤ n + 1
    · have hn : d.getLsbD n = false := h n (by omega)
      have hs : ∀ i, (modpStep b n d).getLsbD i = (decide (i < n) && d.getLsbD i) := by
        intro i
        by_cases hi : i < n
        · rw [getLsbD_modpStep _ _ _ _ hi, hn]
          simp [hi]
        · simp [hi, BitVec.getLsbD_of_ge _ _ (Nat.le_of_not_lt hi)]
      rw [modpLoop_succ b n d hl, ih _ (fun i hi => by simp [hs, h i hi]), hs]
      by_cases hj : j < n
      · simp [hj]
      · simp only [hj, decide_false, Bool.false_and]
        rcases Nat.lt_or_ge n j with h1 | h1
        · exact (BitVec.getLsbD_of_ge _ _ (by omega)).symm
        · obtain rfl : j = n := by omega
          exact hn.symm
    · rw [modpLoop_stop b (n + 1) d (by omega)]
      rfl

end Sys2Proof.Machine
end

