-- ==== Sys2Proof/Laws/Ops.lean ====
section
/-! SUPPORT. The shared operations: widths, operands, flips, the table, and the host's register reads and
writes. -/

/-! ### Widths and lengths -/

namespace Sys2Proof

theorem lt_two_pow_bitlength (n : Nat) : n < 2 ^ bitlength n := Nat.lt_log2_self

theorem Config.N_eq (c : Config) : c.N = c.K + c.P := rfl

theorem Config.N_pos (c : Config) : 0 < c.N := Nat.add_pos_left c.one_le_K _

theorem Config.P_lt_N (c : Config) : c.P < c.N := Nat.lt_add_of_pos_left c.one_le_K

/-- Every position fits an index register (R7's IW). -/
theorem Config.N_le_two_pow_IW (c : Config) : c.N ≤ 2 ^ c.IW := by
  have h : c.N ≤ 2 ^ clog2 c.N := by
    unfold clog2
    split
    · assumption
    · have := Nat.lt_log2_self (n := c.N - 1)
      omega
  exact h.trans (Nat.pow_le_pow_right (by omega) (Nat.le_max_right _ _))

end Sys2Proof

namespace Sys2Proof.Machine

variable {c : Config}

theorem toNat_position {i : Nat} (h : i < c.N) : (BitVec.ofNat c.IW i).toNat = i := by
  rw [BitVec.toNat_ofNat, Nat.mod_eq_of_lt (h.trans_le c.N_le_two_pow_IW)]

/-- LENR holds every length up to 2W - 1 (R21). -/
theorem toNat_lenr {n : Nat} (h : n ≤ 2 * c.W - 1) : (BitVec.ofNat (c.LW + 1) n).toNat = n := by
  have h1 : c.W < 2 ^ c.LW := lt_two_pow_bitlength c.W
  have h2 := c.one_le_W
  rw [BitVec.toNat_ofNat, Nat.mod_eq_of_lt (by rw [Nat.pow_succ]; omega)]

theorem coeff_operand {w : Nat} (v : BitVec w) (n j : Nat) :
    (operand v n).coeff j = (decide (j < n) && v.getLsbD j) := by
  simp [operand, Poly.coeff, BitVec.getLsbD_setWidth]

/-- RES after a result of length at most 2W - 1 holds its coefficients and 0 above them. -/
theorem getLsbD_withResult_res (r : Regs c) (p : Poly) (h : p.len ≤ 2 * c.W - 1) (j : Nat) :
    (r.withResult p).res.getLsbD j = p.coeff j := by
  rw [Regs.withResult_res, BitVec.getLsbD_setWidth]
  by_cases hj : j < 2 * c.W - 1
  · simp [hj, Poly.coeff]
  · rw [Poly.coeff_of_ge (by omega)]
    simp [hj]

/-! ### Positions -/

theorem getLsbD_positionBit (i j : Nat) (h : i < c.N) :
    (positionBit c i).getLsbD j = decide (j = c.N - 1 - i) := by
  unfold positionBit
  have h1 : c.N - 1 - i < c.N := by omega
  rw [BitVec.getLsbD_shiftLeft, BitVec.getLsbD_one]
  by_cases hj : j = c.N - 1 - i
  · subst hj
    simp [h1, c.N_pos]
  · by_cases h2 : j < c.N - 1 - i
    · simp [hj, h2]
    · simp [hj, show j - (c.N - 1 - i) ≠ 0 by omega]

theorem getLsbD_flipPosition (v : BitVec c.N) (i j : Nat) (h : i < c.N) :
    (flipPosition c v i).getLsbD j = (v.getLsbD j ^^ decide (j = c.N - 1 - i)) := by
  rw [flipPosition, BitVec.getLsbD_xor, getLsbD_positionBit i j h]

/-- Flipping a position twice restores the word. -/
@[simp] theorem flipPosition_flipPosition (v : BitVec c.N) (i : Nat) :
    flipPosition c (flipPosition c v i) i = v := by
  rw [flipPosition, flipPosition, BitVec.xor_assoc, BitVec.xor_self, BitVec.xor_zero]

/-! ### The table -/

theorem lookup_eq_tableRead (r : Regs c) (key : BitVec c.P) : r.lookup key = tableRead r.table key := rfl

theorem tableRead_tableWrite (t : Vector (Entry c) (2 ^ c.P)) (key key' : BitVec c.P) (e : Entry c) :
    tableRead (tableWrite t key e) key' = if key' = key then e else tableRead t key' := by
  simp only [tableRead, tableWrite, Vector.getElem_set]
  by_cases h : key' = key
  · simp [h]
  · rw [if_neg (fun h' => h (BitVec.eq_of_toNat_eq h'.symm)), if_neg h]

@[simp] theorem tableRead_tableClear (key : BitVec c.P) :
    tableRead (tableClear c) key = Entry.invalid c := by
  simp [tableRead, tableClear]

theorem table_ext {t u : Vector (Entry c) (2 ^ c.P)} (h : ∀ key, tableRead t key = tableRead u key) :
    t = u := by
  ext1 i hi
  have := h (BitVec.ofNat c.P i)
  simpa [tableRead, Nat.mod_eq_of_lt hi] using this

/-- What TBLD has built after the first `m` positions: each key holds the last of them with that syndrome,
and a collision among them is noted. -/
theorem buildTable_prefix (cw : BitVec c.N) (m : Nat) :
    let b := (List.range m).foldl (tableBuildStep c cw) (tableClear c, false)
    (∀ key, (∃ i, i < m ∧ synp c (flipPosition c cw i) = key ∧
        (∀ j, i < j → j < m → synp c (flipPosition c cw j) ≠ key) ∧
        tableRead b.1 key = ⟨true, BitVec.ofNat _ i⟩) ∨
      ((∀ i, i < m → synp c (flipPosition c cw i) ≠ key) ∧ tableRead b.1 key = Entry.invalid c)) ∧
    (b.2 = true ↔ ∃ i j, i < j ∧ j < m ∧
      synp c (flipPosition c cw i) = synp c (flipPosition c cw j)) := by
  induction m with
  | zero => simp
  | succ m ih =>
    rw [List.range_succ, List.foldl_append, List.foldl_cons, List.foldl_nil]
    set b := (List.range m).foldl (tableBuildStep c cw) (tableClear c, false)
    obtain ⟨hk, hc⟩ := ih
    refine ⟨fun key => ?_, ?_⟩
    · simp only [tableBuildStep, tableRead_tableWrite]
      by_cases hm : key = synp c (flipPosition c cw m)
      · exact .inl ⟨m, by omega, hm.symm, fun j _ _ => by omega, if_pos hm⟩
      · rw [if_neg hm]
        rcases hk key with ⟨i, hi, he, hl, hr⟩ | ⟨hn, hr⟩
        · refine .inl ⟨i, by omega, he, fun j h1 h2 => ?_, hr⟩
          rcases Nat.lt_succ_iff_lt_or_eq.mp h2 with h | h
          · exact hl j h1 h
          · exact h ▸ Ne.symm hm
        · refine .inr ⟨fun i hi => ?_, hr⟩
          rcases Nat.lt_succ_iff_lt_or_eq.mp hi with h | h
          · exact hn i h
          · exact h ▸ Ne.symm hm
    · simp only [tableBuildStep, Bool.or_eq_true, hc]
      constructor
      · rintro (⟨i, j, h1, h2, h3⟩ | h)
        · exact ⟨i, j, h1, by omega, h3⟩
        · rcases hk (synp c (flipPosition c cw m)) with ⟨i, hi, he, -, -⟩ | ⟨-, hr⟩
          · exact ⟨i, m, hi, by omega, he⟩
          · rw [hr] at h
            exact absurd h (by simp [Entry.invalid])
      · rintro ⟨i, j, h1, h2, h3⟩
        rcases Nat.lt_succ_iff_lt_or_eq.mp h2 with h | rfl
        · exact .inl ⟨i, j, h1, h, h3⟩
        · right
          rcases hk (synp c (flipPosition c cw j)) with ⟨k, -, -, -, hr⟩ | ⟨hn, -⟩
          · rw [hr]
          · exact absurd h3 (hn i h1)

/-! ### Host reads and writes of registers -/

/-- The registers a host write stores to (R56). -/
theorem read_write_same (r : Regs c) (v : Nat) (n : RegName) (h : regAccess n = .readWrite) :
    ((r.write v n).read n).toNat = v % 2 ^ regWidth c n := by
  cases n <;> first | exact absurd h (by decide) | exact BitVec.toNat_ofNat ..

/-- A host write leaves every other register, and the table, as they were. -/
theorem read_write_other (r : Regs c) (v : Nat) (n m : RegName) (h : m ≠ n) (ht : m ≠ .tbldata) :
    (r.write v n).read m = r.read m := by
  cases n <;> cases m <;> first | exact absurd rfl h | exact absurd rfl ht | rfl

@[simp] theorem write_table (r : Regs c) (v : Nat) (n : RegName) : (r.write v n).table = r.table := by
  cases n <;> rfl

@[simp] theorem write_status (r : Regs c) (v : Nat) (n : RegName) : (r.write v n).status = r.status := by
  cases n <;> rfl

/-- A host write to a register that is not read-write stores nothing. -/
theorem write_ignored (r : Regs c) (v : Nat) (n : RegName) (h : regAccess n ≠ .readWrite) :
    r.write v n = r := by
  cases n <;> first | rfl | exact absurd rfl h

end Sys2Proof.Machine
end

