-- ==== Sys2Proof/Laws/Step.lean ====
section
/-! SUPPORT. Everything a command and a step can do, said once. -/

namespace Sys2Proof.Machine

variable {c : Config}

/-- What a command leaves in the registers. -/
def instrRegs (r : Regs c) : Instr → Regs c
  | .nop => r.done
  | .mul => if mulBadLength r then r.fail .badLength
      else (r.withResult (mulp (operandA r) (operandB r))).done
  | .mod => if modDegenerate r then r.fail .degenerateDivisor
      else if modBadLength r then r.fail .badLength
      else (r.withResult (modp (operandA r) (operandB r))).done
  | .enc => (r.withCodeword (encodeMessage r)).done
  | .tbld => (r.withTable (buildTable c r.cw).1 (buildTable c r.cw).2).done
  | .dec => (correct r).done

/-- Every command completes, writing the registers only. -/
theorem exec_eq (i : Instr) (s : State) : exec i s = .next (s.withRegs (instrRegs s.regs i)) := by
  cases i with
  | nop => rfl
  | mul =>
    simp only [exec, execMul, instrRegs]
    split <;> rfl
  | mod =>
    simp only [exec, execMod, instrRegs]
    split
    · rfl
    · split <;> rfl
  | enc => rfl
  | tbld => rfl
  | dec => rfl

/-- No command but TBLD writes the table. -/
theorem instrRegs_table (r : Regs c) (i : Instr) (h : i ≠ .tbld) : (instrRegs r i).table = r.table := by
  cases i <;> simp only [instrRegs, correct] <;>
    first | rfl | contradiction | (split <;> first | rfl | (split <;> rfl))

/-- No command writes TBLKEY. -/
@[simp] theorem instrRegs_tblkey (r : Regs c) (i : Instr) : (instrRegs r i).tblkey = r.tblkey := by
  cases i <;> simp only [instrRegs, correct] <;> first | rfl | (split <;> first | rfl | (split <;> rfl))

/-- TBLDATA is a view of the table and TBLKEY (R32). -/
theorem tbldata_congr {r r' : Regs c} (ht : r'.table = r.table) (hk : r'.tblkey = r.tblkey) :
    r'.tbldata = r.tbldata := by
  unfold Regs.tbldata Regs.lookup
  rw [ht, hk]

/-- What a command word leaves in the registers. -/
def commandRegs (r : Regs c) (w : BitVec 8) : Regs c :=
  match decode w with
  | some i => instrRegs r i
  | none => r.fail .illegalCmd

theorem runCommand_eq (s : State) (w : BitVec 8) :
    runCommand s w = .next (s.withRegs (commandRegs s.regs w)) := by
  unfold runCommand commandRegs
  cases decode w with
  | some i => exact exec_eq i s
  | none => rfl

/-- A register number names the register whose number it is. -/
theorem ofAddr_eq_some {a : BitVec 5} {n : RegName} : RegName.ofAddr a = some n ↔ a = n.addr := by
  revert a n
  intro a n
  constructor
  · revert a
    cases n <;> decide
  · rintro rfl
    cases n <;> rfl

theorem acceptWrite_cmd (s : State) (v : Nat) :
    acceptWrite s 0x00#5 v = .next (s.withRegs (commandRegs s.regs (BitVec.ofNat 8 v))) :=
  runCommand_eq s _

theorem acceptWrite_register (s : State) (v : Nat) (n : RegName) (h : n ≠ .cmd) :
    acceptWrite s n.addr v = .next (s.withRegs (s.regs.write v n)) := by
  simp only [acceptWrite, ofAddr_eq_some.mpr rfl, if_neg h]

theorem acceptWrite_unmapped (s : State) (a : BitVec 5) (v : Nat) (h : RegName.ofAddr a = none) :
    acceptWrite s a v = .next s := by
  simp only [acceptWrite, h]

/-- What a step leaves in the registers: they stand, the host has written one of its own, a command word
has run, or the core was reset. -/
inductive RegsStep (s : State) : Regs s.cfg → Prop
  | same : (∀ w, ¬ NextIsCommand s w) → ¬ NextIsReset s → RegsStep s s.regs
  | write (n : RegName) (v : Nat) : regAccess n = .readWrite → (∀ w, ¬ NextIsCommand s w) →
      ¬ NextIsReset s → (∃ rest, s.port = .write n.addr v :: rest) → RegsStep s (s.regs.write v n)
  | command (w : BitVec 8) : NextIsCommand s w → ¬ NextIsReset s → RegsStep s (commandRegs s.regs w)
  | reset : NextIsReset s → RegsStep s (Regs.reset s.cfg)

/-- Every step answers a next state: the configuration stands, the access is taken off the port, replies
are only added, and the registers are as `RegsStep` says. -/
theorem step_cases (s : State) : ∃ (r : Regs s.cfg) (more : List Reply),
    step s = .next ⟨s.cfg, r, s.port.tail, s.replies ++ more⟩ ∧ RegsStep s r := by
  obtain ⟨cfg, regs, port, replies⟩ := s
  cases port with
  | nil =>
    exact ⟨regs, [], by simp [step, serve],
      .same (by simp [NextIsCommand]) (by simp [NextIsReset])⟩
  | cons e rest =>
    cases e with
    | read a =>
      exact ⟨regs, [⟨a, hostRead ⟨cfg, regs, rest, replies⟩ a⟩], rfl,
        .same (by simp [NextIsCommand]) (by simp [NextIsReset])⟩
    | reset =>
      exact ⟨Regs.reset cfg, [], by simp [step, serve, accept, acceptReset, State.withRegs],
        .reset ⟨rest, rfl⟩⟩
    | write a v =>
      have hr : ¬ NextIsReset ⟨cfg, regs, .write a v :: rest, replies⟩ := by simp [NextIsReset]
      cases h : RegName.ofAddr a with
      | none =>
        have ha : a ≠ 0x00#5 := by rintro rfl; exact absurd h (by decide)
        refine ⟨regs, [], ?_, .same (by simp [NextIsCommand, ha]) hr⟩
        simp [step, serve, accept, acceptWrite_unmapped _ _ _ h]
      | some n =>
        obtain rfl := ofAddr_eq_some.mp h
        by_cases hn : n = .cmd
        · subst hn
          refine ⟨commandRegs regs (BitVec.ofNat 8 v), [], ?_, .command _ ⟨v, rest, rfl, rfl⟩ hr⟩
          have := acceptWrite_cmd ⟨cfg, regs, rest, replies⟩ v
          simpa [step, serve, accept, State.withRegs, RegName.addr] using this
        · have hc : ∀ w, ¬ NextIsCommand ⟨cfg, regs, .write n.addr v :: rest, replies⟩ w := by
            rintro w ⟨v', rest', h', -⟩
            simp only [List.cons.injEq, PortEvent.write.injEq] at h'
            exact hn (by
              have := ofAddr_eq_some.mpr h'.1.1.symm
              revert this
              cases n <;> decide)
          have hs := acceptWrite_register ⟨cfg, regs, rest, replies⟩ v n hn
          by_cases hw : regAccess n = .readWrite
          · refine ⟨regs.write v n, [], ?_, .write n v hw hc hr ⟨rest, rfl⟩⟩
            simpa [step, serve, accept, State.withRegs] using hs
          · refine ⟨regs, [], ?_, .same hc hr⟩
            rw [show ({ cfg := cfg, regs := regs, port := rest, replies := replies } : State).regs.write v n
              = regs from write_ignored regs v n hw] at hs
            simpa [step, serve, accept, State.withRegs] using hs

end Sys2Proof.Machine
end

