-- ==== Sys2Proof/Laws/Code.lean ====
section
/-! SUPPORT. The syndrome as a linear map on N-bit words: what ENC, TBLD and DEC rest on. -/

namespace Sys2Proof.Machine

variable {c : Config}

theorem gen_len (c : Config) : c.gen.len = c.P + 1 := rfl

/-- The remainder of an N-bit word by G has length P (R132). -/
theorem modp_word_len (v : BitVec c.N) : (modp ⟨c.N, v⟩ c.gen).len = c.P := by
  have h := modpLoop_len c.gen (by simp [gen_len]) c.N v
  have := c.P_lt_N
  rw [gen_len] at h
  simp only [modp]
  omega

theorem getLsbD_synp (v : BitVec c.N) (j : Nat) :
    (synp c v).getLsbD j = (modp ⟨c.N, v⟩ c.gen).coeff j := by
  rw [synp, BitVec.getLsbD_setWidth]
  by_cases h : j < c.P
  · simp [h, Poly.coeff]
  · rw [Poly.coeff_of_ge (by rw [modp_word_len]; omega)]
    simp [h]

theorem synp_xor (v w : BitVec c.N) : synp c (v ^^^ w) = synp c v ^^^ synp c w := by
  apply BitVec.eq_of_getLsbD_eq
  intro j _
  rw [BitVec.getLsbD_xor, getLsbD_synp, getLsbD_synp, getLsbD_synp]
  exact coeff_modpLoop_xor ..

/-- A word is a codeword exactly when its syndrome is 0. -/
theorem isCodeword_iff (v : BitVec c.N) : IsCodeword c v ↔ synp c v = 0#c.P := by
  constructor
  · intro h
    apply BitVec.eq_of_getLsbD_eq
    intro j _
    rw [getLsbD_synp, h]
    simp [Poly.coeff]
  · intro h
    refine Poly.eq_of_coeff (modp_word_len v) fun j => ?_
    rw [← getLsbD_synp, h]
    simp [Poly.coeff]

/-- A word with nothing in its message part is its own syndrome. -/
theorem getLsbD_synp_of_small (v : BitVec c.N) (h : ∀ j, c.P ≤ j → v.getLsbD j = false) (j : Nat) :
    (synp c v).getLsbD j = v.getLsbD j := by
  rw [getLsbD_synp]
  exact coeff_modpLoop_small c.gen c.N v (fun i hi => h i hi) j

/-- DEC on a syndrome that is a valid key. -/
theorem correct_of_hit (r : Regs c) (h : (tableRead r.table (synp c r.rx)).valid = true) :
    correct r = r.withDecode (synp c r.rx)
      (flipPosition c r.rx (tableRead r.table (synp c r.rx)).pos.toNat)
      (tableRead r.table (synp c r.rx)).pos .corrected := if_pos h

/-- DEC on a syndrome that is no valid key. -/
theorem correct_of_miss (r : Regs c) (h : (tableRead r.table (synp c r.rx)).valid = false) :
    correct r = r.withDecode (synp c r.rx) r.rx 0#_ .uncorrectable :=
  if_neg (Bool.eq_false_iff.mp h)

end Sys2Proof.Machine
end

