-- ==== Sys2Proof/Laws/PerInstr.lean ====
section
/-! SUPPORT. Facts about every instruction as syntax, one lemma per constructor. -/

namespace Sys2Proof.Laws.WordNotReserved

/-- R74: an instruction is well formed and its command word is a defined one, RSV 0 and OP below 6. -/
def Statement (i : Instr) : Prop := i.wf = true ∧ commandWordWf (encode i) = true

theorem nop : Statement .nop := ⟨rfl, rfl⟩
theorem mul : Statement .mul := ⟨rfl, rfl⟩
theorem mod : Statement .mod := ⟨rfl, rfl⟩
theorem enc : Statement .enc := ⟨rfl, rfl⟩
theorem tbld : Statement .tbld := ⟨rfl, rfl⟩
theorem dec : Statement .dec := ⟨rfl, rfl⟩

end Sys2Proof.Laws.WordNotReserved
end

