-- ==== Sys2Proof/Machine/HostText.lean ====
section
/-! DEFINITION. The text of a host program (30_encoding.md R76): one access a line, numerals in hexadecimal,
binary or decimal, a comment after a semicolon, mnemonics in either case (log 14). -/

namespace Sys2Proof.Machine

/-- R21: a register by its name in the register table. -/
def regOfName (w : String) : Option RegName :=
  if w = "CMD" then some .cmd
  else if w = "STATUS" then some .status
  else if w = "GEN" then some .gen
  else if w = "OPA" then some .opa
  else if w = "LENA" then some .lena
  else if w = "OPB" then some .opb
  else if w = "LENB" then some .lenb
  else if w = "RES" then some .res
  else if w = "LENR" then some .lenr
  else if w = "MSG" then some .msg
  else if w = "CW" then some .cw
  else if w = "RX" then some .rx
  else if w = "SYN" then some .syn
  else if w = "OUT" then some .out
  else if w = "IDX" then some .idx
  else if w = "TBLKEY" then some .tblkey
  else if w = "TBLDATA" then some .tbldata
  else none

/-- The value of a digit, below 16. -/
def digitValue (ch : Char) : Option Nat :=
  if '0' ≤ ch ∧ ch ≤ '9' then some (ch.toNat - '0'.toNat)
  else if 'a' ≤ ch ∧ ch ≤ 'f' then some (ch.toNat - 'a'.toNat + 10)
  else if 'A' ≤ ch ∧ ch ≤ 'F' then some (ch.toNat - 'A'.toNat + 10)
  else none

/-- The digits of a numeral in a base, after those already read as `acc`. -/
def digitsValue (base acc : Nat) : List Char → Option Nat
  | [] => some acc
  | ch :: rest =>
    match digitValue ch with
    | some d => if d < base then digitsValue base (base * acc + d) rest else none
    | none => none

/-- R76: a numeral, 0x hexadecimal, 0b binary or decimal. -/
def numeralValue : List Char → Option Nat
  | '0' :: 'x' :: d :: ds => digitsValue 16 0 (d :: ds)
  | '0' :: 'b' :: d :: ds => digitsValue 2 0 (d :: ds)
  | d :: ds => digitsValue 10 0 (d :: ds)
  | [] => none

/-- R76: the characters of a line before its comment. -/
def dropComment (l : List Char) : List Char := l.takeWhile fun ch => ch != ';'

/-- A line cut into words at spaces; a comma is a word of its own. `word` is the word being read,
reversed. -/
def lineWords (word : List Char) : List Char → List (List Char)
  | [] => if word = [] then [] else [word.reverse]
  | ch :: rest =>
    if ch = ' ' then (if word = [] then [] else [word.reverse]) ++ lineWords [] rest
    else if ch = ',' then (if word = [] then [] else [word.reverse]) ++ [','] :: lineWords [] rest
    else lineWords (ch :: word) rest

/-- R76: the command a pseudo-instruction mnemonic, already in lower case, stands for. -/
def commandOfName (w : String) : Option Instr :=
  if w = "nop" then some .nop
  else if w = "mul" then some .mul
  else if w = "mod" then some .mod
  else if w = "enc" then some .enc
  else if w = "tbld" then some .tbld
  else if w = "dec" then some .dec
  else none

/-- R76: the statement of a line; mnemonics are case-insensitive. -/
def parseLine (line : String) : Option HostStmt :=
  match lineWords [] (dropComment line.toList) with
  | [m] => (commandOfName (String.ofList (m.map Char.toLower))).map .command
  | [m, a] =>
    if String.ofList (m.map Char.toLower) = "rd" then (regOfName (String.ofList a)).map .rd
    else if String.ofList (m.map Char.toLower) = "lookup" then (numeralValue a).map .lookup
    else none
  | [m, a, [','], v] =>
    if String.ofList (m.map Char.toLower) = "wr" then
      match regOfName (String.ofList a), numeralValue v with
      | some r, some n => some (.wr r n)
      | _, _ => none
    else none
  | _ => none

/-- R76: the accesses a host program in text stands for; none if a line is no statement. -/
def assemble : List String → Option (List PortEvent)
  | [] => some []
  | l :: ls =>
    match parseLine l, assemble ls with
    | some st, some rest => some (st.accesses ++ rest)
    | _, _ => none

/-- A state with a host program still to run, its accesses after those already pending. -/
def loadProgram (s : State) (p : List PortEvent) : State := { s with port := s.port ++ p }

end Sys2Proof.Machine
end

