-- ==== Sys2Proof/Tests/Slice0.lean ====
section
/-! SUPPORT. Tests: `test_*` compare the model with spec/95_test_vectors.md, spec/opcode_table.json and worked
examples of the rules; `witness_*` show a concrete case that meets the hypotheses of an obligation. -/

namespace Sys2Proof.Tests

open Sys2Proof.Machine

/-! ### Helpers -/

/-- The source's configuration with W = 16 (95_test_vectors.md). -/
abbrev src : Config := Config.default

/-- G = x^2 + x + 1, K = 1, N = 3: no collision, the order of x is 3. -/
abbrev small : Config := ⟨2, 0b111#3, 1, 4, by decide, by decide, by decide, by decide, by decide⟩

/-- G = x + 1, K = 1, N = 2: both positions have syndrome 1. -/
abbrev tiny : Config := ⟨1, 0b11#2, 1, 2, by decide, by decide, by decide, by decide, by decide⟩

/-- V10: G = x^3 + 1, K = 4, N = 7. -/
abbrev cube : Config := ⟨3, 0b1001#4, 4, 16, by decide, by decide, by decide, by decide, by decide⟩

/-- A core of configuration `c` with registers `r` and the accesses `port` to come. -/
def core (c : Config) (r : Regs c) (port : List PortEvent) : State := ⟨c, r, port, []⟩

/-- The reset registers of the source's configuration with MUL's and MOD's operands. -/
def operands (a la b lb : Nat) : Regs src :=
  { Regs.reset src with opa := BitVec.ofNat _ a, lena := BitVec.ofNat _ la, opb := BitVec.ofNat _ b,
                        lenb := BitVec.ofNat _ lb }

/-- The value a register reads as in the next state. -/
def readAfter (o : Result) (n : RegName) : Option Nat :=
  match o with
  | .next t => some (t.regs.read n).toNat
  | .fault _ => none
  | .refused _ => none

/-- RES, LENR and STATUS in the next state. -/
def resultAfter (o : Result) : List (Option Nat) :=
  [readAfter o .res, readAfter o .lenr, readAfter o .status]

/-- SYN, IDX, OUT and STATUS in the next state. -/
def decodeAfter (o : Result) : List (Option Nat) :=
  [readAfter o .syn, readAfter o .idx, readAfter o .out, readAfter o .status]

/-- The registers of the source's configuration after TBLD with RX = `rx`. -/
def builtSrc (rx : Nat) : Regs src :=
  { (Regs.reset src).withTable (buildTable src 0#_).1 (buildTable src 0#_).2 with rx := BitVec.ofNat _ rx }

/-- The registers of a configuration after TBLD from CW = 0, RX = `rx`. -/
def built (c : Config) (rx : BitVec c.N) : Regs c :=
  { (Regs.reset c).withTable (buildTable c 0#_).1 (buildTable c 0#_).2 with rx := rx }

/-! ### Decoding (opcode_table.json, 30_encoding.md) -/

theorem test_decode_words :
    [0b00000000#8, 0b00000001#8, 0b00000010#8, 0b00000011#8, 0b00000100#8, 0b00000101#8].map decode =
      [some .nop, some .mul, some .mod, some .enc, some .tbld, some .dec] := by decide

/-- R74: the first word past the table, a defined OP under RSV = 1, and the last word. -/
theorem test_decode_reserved :
    [0b00000110#8, 0b00001111#8, 0b00010011#8, 0b11111111#8].map decode = [none, none, none, none] := by
  decide

theorem test_decodeTableWord :
    decodeTableWord 8 0x03 = some .enc ∧ decodeTableWord 8 0x13 = none ∧ decodeTableWord 16 0x03 = none := by
  decide

/-- The very next step after `withFetchWord` runs each command. -/
theorem test_withFetchWord_runs :
    [0x00, 0x01, 0x02, 0x03, 0x04, 0x05, 0x06].map
        (fun w => readAfter (step (State.reset.withFetchWord 8 w)) .status) =
      [some 0x0000, some 0x000A, some 0x000B, some 0x0000, some 0x0040, some 0x0020, some 0x0009] := by
  decide

/-! ### Well-formedness: each check refuses an ill-formed term -/

/-- R7, R8: the source's parameters are a core; each violated constraint is refused: P = 0, G wider than
P + 1 bits, G[P] = 0, G[0] = 0, K = 0, N not K + P, W = 0. -/
theorem test_params_wf :
    (⟨6, 0x43, 4, 10, 16⟩ : Params).wf = true ∧ (⟨0, 1, 4, 4, 16⟩ : Params).wf = false ∧
    (⟨6, 0xC3, 4, 10, 16⟩ : Params).wf = false ∧ (⟨6, 0x03, 4, 10, 16⟩ : Params).wf = false ∧
    (⟨6, 0x42, 4, 10, 16⟩ : Params).wf = false ∧ (⟨6, 0x43, 0, 6, 16⟩ : Params).wf = false ∧
    (⟨6, 0x43, 4, 7, 16⟩ : Params).wf = false ∧ (⟨6, 0x43, 4, 10, 0⟩ : Params).wf = false := by decide

theorem test_params_elaborate :
    (⟨6, 0x43, 4, 10, 16⟩ : Params).elaborate = some src ∧ (⟨0, 1, 4, 4, 16⟩ : Params).elaborate = none ∧
    (⟨6, 0xC3, 4, 10, 16⟩ : Params).elaborate = none ∧ (⟨6, 0x03, 4, 10, 16⟩ : Params).elaborate = none ∧
    (⟨6, 0x42, 4, 10, 16⟩ : Params).elaborate = none ∧ (⟨6, 0x43, 0, 6, 16⟩ : Params).elaborate = none ∧
    (⟨6, 0x43, 4, 7, 16⟩ : Params).elaborate = none ∧ (⟨6, 0x43, 4, 10, 0⟩ : Params).elaborate = none := by
  decide

theorem test_commandWordWf :
    commandWordWf 0x05#8 = true ∧ commandWordWf 0x06#8 = false ∧ commandWordWf 0x13#8 = false := by decide

/-- R7: N, IW and LW of the source's configuration at W = 16. -/
theorem test_widths : src.N = 10 ∧ src.IW = 4 ∧ src.LW = 5 ∧ tiny.IW = 1 ∧ small.IW = 2 := by decide

/-! ### MUL and MOD (V4, V5) -/

theorem test_mul :
    resultAfter (exec .mul (core src (operands 0b11 2 0b11 2) [])) = [some 0b101, some 3, some 0] ∧
    resultAfter (exec .mul (core src (operands 0x43 7 0x43 7) [])) = [some 0x1005, some 13, some 0] ∧
    resultAfter (exec .mul (core src (operands 0b011 3 0b01 2) [])) = [some 0b0011, some 4, some 0] := by
  decide

theorem test_mul_bad_length :
    resultAfter (exec .mul (core src (operands 1 0 1 1) [])) = [some 0, some 0, some 0x000A] ∧
    resultAfter (exec .mul (core src (operands 1 1 1 17) [])) = [some 0, some 0, some 0x000A] := by decide

theorem test_mod :
    resultAfter (exec .mod (core src (operands 0x340 10 0x43 7) [])) = [some 0b010111, some 6, some 0] ∧
    resultAfter (exec .mod (core src (operands 0b111 3 0b011 3) [])) = [some 0, some 2, some 0] ∧
    resultAfter (exec .mod (core src (operands 0b11 2 0b111 3) [])) = [some 0b11, some 2, some 0] ∧
    resultAfter (exec .mod (core src (operands 0b101 3 1 1) [])) = [some 0, some 0, some 0] := by decide

theorem test_mod_errors :
    resultAfter (exec .mod (core src (operands 0 0 1 0) [])) = [some 0, some 0, some 0x000B] ∧
    resultAfter (exec .mod (core src (operands 1 0 0x43 7) [])) = [some 0, some 0, some 0x000A] ∧
    resultAfter (exec .mod (core src (operands 1 1 1 17) [])) = [some 0, some 0, some 0x000A] := by decide

/-! ### ENC (V1, V7) -/

theorem test_enc :
    readAfter (exec .enc (core src { Regs.reset src with msg := 0b1101#4 } [])) .cw = some 0x357 ∧
    readAfter (exec .enc (core src { Regs.reset src with msg := 0b1111#4 } [])) .cw = some 0x3D1 := by decide

/-- V11: success clears ERR and keeps ERRS. -/
theorem test_enc_status :
    readAfter (exec .enc (core src { Regs.reset src with status := 0x000A#16 } [])) .status =
      some 0x0008 := by decide

/-! ### TBLD (V6, V10) -/

/-- The entry of a key in the next state as TBLDATA shows it. -/
def tableAfter (o : Result) (key : Nat) : Option Nat :=
  match o with
  | .next t => some (Regs.tbldata { t.regs with tblkey := BitVec.ofNat _ key }).toNat
  | .fault _ => none
  | .refused _ => none

theorem test_tbld :
    [0x18, 0x0C, 0x06, 0x03, 0x20, 0x10, 0x08, 0x04, 0x02, 0x01, 0x00, 0x3F].map
        (tableAfter (exec .tbld (core src { Regs.reset src with cw := 0x357#10 } []))) =
      [0x10, 0x11, 0x12, 0x13, 0x14, 0x15, 0x16, 0x17, 0x18, 0x19, 0x00, 0x00].map some := by decide

theorem test_tbld_collision :
    [0b001, 0b010, 0b100, 0b000, 0b111].map (tableAfter (exec .tbld (core cube (Regs.reset cube) []))) =
      [some 14, some 13, some 12, some 0, some 0] ∧
    readAfter (exec .tbld (core cube (Regs.reset cube) [])) .status = some 0x00C0 := by decide

/-! ### DEC (V2, V3, V9) -/

theorem test_dec :
    decodeAfter (exec .dec (core src (builtSrc 0x157) [])) = [some 0x18, some 0, some 0x357, some 0x50] ∧
    decodeAfter (exec .dec (core src (builtSrc 0x356) [])) = [some 0x01, some 9, some 0x357, some 0x50] ∧
    decodeAfter (exec .dec (core src (builtSrc 0x316) [])) = [some 0x02, some 8, some 0x314, some 0x50] := by
  decide

theorem test_dec_miss :
    decodeAfter (exec .dec (core src (builtSrc 0x357) [])) = [some 0, some 0, some 0x357, some 0x60] ∧
    decodeAfter (exec .dec (core src (builtSrc 0x057) [])) = [some 0x14, some 0, some 0x057, some 0x60] ∧
    decodeAfter (exec .dec (core src { Regs.reset src with rx := 0x157#10 } [])) =
      [some 0x18, some 0, some 0x157, some 0x20] := by decide

/-! ### NOP and reserved words (V11) -/

theorem test_nop :
    readAfter (exec .nop (core src { Regs.reset src with status := 0x000A#16 } [])) .status =
      some 0x0008 := by decide

theorem test_illegal :
    readAfter (step (core src (operands 1 1 1 1) [.write 0x00#5 0x13])) .status = some 0x0009 ∧
    readAfter (step (core src (operands 1 1 1 1) [.write 0x00#5 0x13])) .lenr = some 0 := by decide

/-! ### The host port (V12) -/

/-- The value the host reads after a write. -/
def readBack (a : BitVec 5) (v : Nat) : Option Nat :=
  match step (core src (Regs.reset src) [.write a v, .read a]) with
  | .next t => some (hostRead t a)
  | .fault _ => none
  | .refused _ => none

theorem test_host_port :
    hostRead State.reset 0x00#5 = 0 ∧ hostRead State.reset 0x02#5 = 0x43 ∧ readBack 0x02#5 0 = some 0x43 ∧
    readBack 0x0A#5 0x3FF = some 0 ∧ readBack 0x09#5 0x1F = some 0xF ∧ readBack 0x04#5 0x25 = some 0x05 ∧
    readBack 0x15#5 1 = some 0 ∧ hostRead State.reset 0x01#5 = 0 ∧ hostRead State.reset 0x10#5 = 0 := by
  decide

/-- The reply of a read and the access taken off the port. -/
theorem test_host_read_reply :
    (match step (core src (Regs.reset src) [.read 0x02#5, .reset]) with
      | .next t => decide (t.replies = [⟨0x02#5, 0x43⟩] ∧ t.port = [.reset])
      | .fault _ => false
      | .refused _ => false) = true := by decide

/-! ### Host programs (R76) -/

theorem test_host_program :
    hostProgram [.wr .msg 0b1101, .command .enc, .rd .cw, .lookup 0x18] =
      [.write 0x09#5 0x0D, .write 0x00#5 0x03, .read 0x0A#5, .write 0x0F#5 0x18, .read 0x10#5] := by decide

theorem test_parse :
    assemble ["wr MSG, 0b1101", "ENC", "rd CW  ; = 0x357", "lookup 0x18", "wr LENA, 17"] =
      some [.write 0x09#5 0x0D, .write 0x00#5 0x03, .read 0x0A#5, .write 0x0F#5 0x18, .read 0x10#5,
        .write 0x04#5 17] ∧
    parseLine "wr MSG" = none ∧ parseLine "rd 0x15" = none := by decide

/-! ### The codec, equality and Render (V1, R53, R104, R130) -/

theorem test_codec :
    toSeq ⟨7, 0x43#7⟩ = [true, false, false, false, false, true, true] ∧
    fromSeq [true, true, false, true] = some ⟨4, 0b1101#4⟩ ∧ fromSeq [] = none := by decide

theorem test_equality_and_render :
    polyEqual ⟨6, 0b010111#6⟩ ⟨5, 0b10111#5⟩ = true ∧ polyEqual ⟨2, 0b10#2⟩ ⟨2, 0b01#2⟩ = false ∧
    polyZero ⟨0, 0#0⟩ = true ∧ render ⟨6, 0b010111#6⟩ = "x^4 + x^2 + x + 1" ∧
    render ⟨3, 0b000#3⟩ = "0" := by decide

/-! ### Facts the witnesses share -/

/-- A core of the source's configuration at reset with one access to come. -/
def pending (e : PortEvent) : State := core src (Regs.reset src) [e]

theorem isCodeword_357 : IsCodeword src 0x357#10 := by unfold IsCodeword; decide

theorem isCodeword_043 : IsCodeword src 0x043#10 := by unfold IsCodeword; decide

theorem isCodeword_zero_src : IsCodeword src 0#10 := by unfold IsCodeword; decide

theorem isCodeword_small : IsCodeword small 0b111#3 := by unfold IsCodeword; decide

theorem isCodeword_zero_small : IsCodeword small 0#3 := by unfold IsCodeword; decide

theorem isCodeword_tiny : IsCodeword tiny 0b11#2 := by unfold IsCodeword; decide

/-- A check of R137's entry over the positions. -/
theorem fixedEntry_of_check {c : Config} {key : BitVec c.P} {e : Entry c}
    (h : (if e.valid then decide (e.pos.toNat < c.N ∧ positionSyndrome c e.pos.toNat = key) &&
        (List.range c.N).all (fun i => decide (e.pos.toNat < i → positionSyndrome c i ≠ key))
      else decide (e.pos = 0#_) && (List.range c.N).all (fun i => positionSyndrome c i != key)) = true) :
    FixedEntry c key e := by
  refine ⟨fun hv => ?_, fun hv => ?_⟩
  · rw [if_pos hv] at h
    simp only [Bool.and_eq_true, decide_eq_true_eq, List.all_eq_true, List.mem_range] at h
    exact ⟨h.1.1, h.1.2, fun i h1 h2 => h.2 i h2 h1⟩
  · rw [if_neg (by simp [hv])] at h
    simp only [Bool.and_eq_true, decide_eq_true_eq, List.all_eq_true, List.mem_range, bne_iff_ne] at h
    exact h

/-- The built table of each of the two small configurations is R137's. -/
theorem fixedTable_small : FixedTable small (built small 0#3).table := by
  intro key
  apply fixedEntry_of_check
  revert key
  decide

theorem fixedTable_tiny : FixedTable tiny (built tiny 0#2).table := by
  intro key
  apply fixedEntry_of_check
  revert key
  decide

theorem tableInv_built_small (rx : BitVec 3) : TableInv (built small rx) :=
  .inr ⟨show (statusFields (built small 0#3).status).tblv = true by decide, fixedTable_small⟩

theorem tableInv_built_tiny (rx : BitVec 2) : TableInv (built tiny rx) :=
  .inr ⟨show (statusFields (built tiny 0#2).status).tblv = true by decide, fixedTable_tiny⟩

theorem tableInv_reset (rx : BitVec 10) : TableInv { Regs.reset src with rx := rx } :=
  .inl ⟨show (statusFields (Regs.reset src).status).tblv = false by decide, tableRead_tableClear⟩

theorem noCollision_small : ¬ Collision small := by
  rintro ⟨i, j, h1, h2, h3⟩
  have h4 : ∀ j < 3, ∀ i < j, positionSyndrome small i ≠ positionSyndrome small j := by decide
  exact h4 j h2 i h1 h3

theorem collInv_built_small (rx : BitVec 3) : CollInv (built small rx) := by
  intro _
  exact iff_of_false (show ¬ (statusFields (built small 0#3).status).coll = true by decide) noCollision_small

/-! ### Witnesses: encoding and the host port -/

/-- Each case of R75 at a boundary: the six words, the first reserved one, the last, and a value wider than
8 bits. -/
theorem witness_CmdWriteExecutesFirstMatchingCase :
    (pending (.write 0x00#5 0x100)).port = .write 0x00#5 0x100 :: [] ∧ 0x100 % 256 = 0x00 ∧
    (pending (.write 0x00#5 0x01)).port = .write 0x00#5 0x01 :: [] ∧ 0x01 % 256 = 0x01 ∧
    (pending (.write 0x00#5 0x02)).port = .write 0x00#5 0x02 :: [] ∧ 0x02 % 256 = 0x02 ∧
    (pending (.write 0x00#5 0x03)).port = .write 0x00#5 0x03 :: [] ∧ 0x03 % 256 = 0x03 ∧
    (pending (.write 0x00#5 0x04)).port = .write 0x00#5 0x04 :: [] ∧ 0x04 % 256 = 0x04 ∧
    (pending (.write 0x00#5 0x105)).port = .write 0x00#5 0x105 :: [] ∧ 0x105 % 256 = 0x05 ∧
    (pending (.write 0x00#5 0x06)).port = .write 0x00#5 0x06 :: [] ∧ 0x05 < 0x06 % 256 ∧
    (pending (.write 0x00#5 0xFF)).port = .write 0x00#5 0xFF :: [] ∧ 0x05 < 0xFF % 256 := by decide

theorem witness_StepRunsDecodedInstruction :
    (pending (.write 0x00#5 0x105)).port = .write 0x00#5 0x105 :: [] ∧
    decode (BitVec.ofNat 8 0x105) = some .dec ∧ decodeTableWord 8 0x00 = some .nop ∧
    decodeTableWord 8 0x05 = some .dec := by decide

/-- OP 6 and 15 under RSV 0, and RSV 1 and 15 over a defined OP. -/
theorem witness_ReservedWordFailsIllegalCmd :
    ∀ v ∈ [0x06, 0x0F, 0x10, 0x13, 0xF0, 0xFF], (pending (.write 0x00#5 v)).port = .write 0x00#5 v :: [] ∧
      (v / 16 % 16 ≠ 0 ∨ 6 ≤ v % 16) := by decide

/-- A read of every register number; 0x11 and 0x1F are the ends of the unmapped range. -/
theorem witness_HostReadReturnsCurrentValue :
    (∀ a : BitVec 5, (pending (.read a)).port = .read a :: []) ∧ 0x11 ≤ (0x11#5).toNat ∧
    0x11 ≤ (0x1F#5).toNat := by decide

/-- One register of each class by its own number, wide values included, and the ends of the unmapped range. -/
theorem witness_HostWriteStoresLowBits :
    (pending (.write 0x0F#5 0x7F)).port = .write RegName.tblkey.addr 0x7F :: [] ∧
    (pending (.write 0x03#5 0)).port = .write RegName.opa.addr 0 :: [] ∧
    (pending (.write 0x00#5 0x101)).port = .write RegName.cmd.addr 0x101 :: [] ∧
    (pending (.write 0x01#5 1)).port = .write RegName.status.addr 1 :: [] ∧
    (pending (.write 0x10#5 1)).port = .write RegName.tbldata.addr 1 :: [] ∧
    (pending (.write 0x11#5 1)).port = .write 0x11#5 1 :: [] ∧ 0x11 ≤ (0x11#5).toNat ∧
    (pending (.write 0x1F#5 1)).port = .write 0x1F#5 1 :: [] ∧ 0x11 ≤ (0x1F#5).toNat := by decide

theorem witness_ConfigurationNeverChanges :
    ∃ t, step (pending (.write 0x02#5 0)) = .next t ∧ t.port = [] := ⟨_, rfl, rfl⟩

theorem witness_ResetEventSetsResetState :
    (pending .reset).port = .reset :: [] ∧
    (∃ s : State, ¬ NextIsReset s ∧ ¬ NextIsCommand s 0x04#8 ∧ (statusFields s.regs.status).errs = true ∧
      (statusFields s.regs.status).tblv = true) :=
  ⟨rfl, core src { Regs.reset src with status := 0x0048#16 } [.write 0x00#5 0x05],
    by simp [NextIsReset, core], by simp [NextIsCommand, core], by decide, by decide⟩

/-! ### Witnesses: commands -/

/-- R105's ends: lengths 1 and W = 16 succeed, 0 and 17 fail, for each operand. -/
theorem witness_MulMultipliesOrReportsBadLength :
    (1 ≤ (operands 1 1 1 16).lena.toNat ∧ (operands 1 1 1 16).lena.toNat ≤ src.W ∧
      1 ≤ (operands 1 1 1 16).lenb.toNat ∧ (operands 1 1 1 16).lenb.toNat ≤ src.W) ∧
    (1 ≤ (operands 1 16 1 1).lena.toNat ∧ (operands 1 16 1 1).lena.toNat ≤ src.W ∧
      1 ≤ (operands 1 16 1 1).lenb.toNat ∧ (operands 1 16 1 1).lenb.toNat ≤ src.W) ∧
    (operands 1 0 1 1).lena.toNat = 0 ∧ src.W < (operands 1 17 1 1).lena.toNat ∧
    (operands 1 1 1 0).lenb.toNat = 0 ∧ src.W < (operands 1 1 1 17).lenb.toNat := by decide

/-- R106's ends: LENB 0, each bad length with LENB not 0, and lengths 1 and W = 16. -/
theorem witness_ModDividesOrReportsError :
    (operands 1 0 1 0).lenb.toNat = 0 ∧
    ((operands 1 0 1 1).lenb.toNat ≠ 0 ∧ (operands 1 0 1 1).lena.toNat = 0) ∧
    ((operands 1 17 1 1).lenb.toNat ≠ 0 ∧ src.W < (operands 1 17 1 1).lena.toNat) ∧
    ((operands 1 1 1 17).lenb.toNat ≠ 0 ∧ src.W < (operands 1 1 1 17).lenb.toNat) ∧
    (1 ≤ (operands 1 1 1 16).lena.toNat ∧ (operands 1 1 1 16).lena.toNat ≤ src.W ∧
      1 ≤ (operands 1 1 1 16).lenb.toNat ∧ (operands 1 1 1 16).lenb.toNat ≤ src.W) ∧
    (1 ≤ (operands 1 16 1 1).lena.toNat ∧ (operands 1 16 1 1).lena.toNat ≤ src.W ∧
      1 ≤ (operands 1 16 1 1).lenb.toNat ∧ (operands 1 16 1 1).lenb.toNat ≤ src.W) := by decide

/-- Each side of each equivalence happens: MUL and MOD with a length 0, MOD with LENB 0, and a success. -/
theorem witness_LengthErrorsExactly :
    ¬ (1 ≤ (operands 1 0 1 1).lena.toNat ∧ (operands 1 0 1 1).lena.toNat ≤ src.W) ∧
    readAfter (exec .mul (core src (operands 1 0 1 1) [])) .status = some 0x000A ∧
    readAfter (exec .mod (core src (operands 1 17 1 1) [])) .status = some 0x000A ∧
    readAfter (exec .mod (core src (operands 1 0 1 0) [])) .status = some 0x000B ∧
    readAfter (exec .mul (core src (operands 1 16 1 16) [])) .status = some 0 := by decide

theorem witness_EncodeLinear : IsCodeword src 0x357#10 ∧ IsCodeword src 0x043#10 :=
  ⟨isCodeword_357, isCodeword_043⟩

theorem witness_TbldKeepsLastPositionOfEachSyndrome :
    synp small (flipPosition small 0b111#3 2) = 0b01#2 ∧
    (∀ i, i < small.N → synp small (flipPosition small 0b111#3 i) ≠ 0b00#2) := by decide

theorem witness_SingleFlipSyndrome : IsCodeword src 0x357#10 ∧ 0 < src.N ∧ 9 < src.N :=
  ⟨isCodeword_357, by decide, by decide⟩

/-- A codeword in CW, and a table that is R137's. -/
theorem witness_TbldBuildsFixedTable :
    IsCodeword small (core small (built small 0#3) []).regs.cw ∧
    FixedTable small (built small 0#3).table := ⟨isCodeword_zero_small, fixedTable_small⟩

theorem witness_ZeroKeyNeverValid :
    IsCodeword small (core small (built small 0b111#3) []).regs.cw ∧ TableInv (built small 0b111#3) ∧
    synp small (built small 0b111#3).rx = 0#2 := ⟨isCodeword_zero_small, tableInv_built_small _, by decide⟩

/-- A configuration without a collision and one with. -/
theorem witness_CollReportsCollision :
    (IsCodeword small (Regs.reset small).cw ∧
      readAfter (exec .tbld (core small (Regs.reset small) [])) .status = some 0x0040) ∧
    (IsCodeword tiny (Regs.reset tiny).cw ∧ powerOfX tiny 0 = powerOfX tiny 1 ∧
      powerOfX tiny 1 = 1#1 ∧
      readAfter (exec .tbld (core tiny (Regs.reset tiny) [])) .status = some 0x00C0) := by
  unfold IsCodeword
  decide

theorem witness_SourceGeneratorCollidesBeyond63 :
    1 ≤ 57 ∧ ¬ 57 < 57 ∧ 1 ≤ 58 ∧ 57 < 58 ∧ (1 : Nat) ≤ 16 := by decide

/-- A hit and a miss. -/
theorem witness_DecCorrectsOrReportsUncorrectable :
    (tableRead (builtSrc 0x157).table (synp src (builtSrc 0x157).rx)).valid = true ∧
    (tableRead (builtSrc 0x357).table (synp src (builtSrc 0x357).rx)).valid = false := by decide

/-! ### Witnesses: correction -/

/-- The first and the last position without a collision; with one, the smaller and the largest. -/
theorem witness_SingleErrorRoundTrip :
    (∀ i ∈ [0, 2], i < small.N ∧ (built small (0b111#3 ^^^ (1#3 <<< (3 - 1 - i)))).rx =
      0b111#3 ^^^ (1#3 <<< (small.N - 1 - i))) ∧
    (∀ rx, TableInv (built small rx) ∧ CollInv (built small rx)) ∧
    (statusFields (built small 0b011#3).status).tblv = true ∧
    (statusFields (built small 0b011#3).status).coll = false ∧ IsCodeword small 0b111#3 ∧
    (∀ rx, TableInv (built tiny rx)) ∧ (statusFields (built tiny 0b01#2).status).tblv = true ∧
    IsCodeword tiny 0b11#2 ∧ positionSyndrome tiny 1 = positionSyndrome tiny 0 ∧
    (∀ j, 1 < j → j < tiny.N → positionSyndrome tiny j ≠ positionSyndrome tiny 0) ∧
    (built tiny 0b01#2).rx = flipPosition tiny 0b11#2 0 ∧
    (built tiny 0b10#2).rx = flipPosition tiny 0b11#2 1 :=
  ⟨by decide, fun rx => ⟨tableInv_built_small rx, collInv_built_small rx⟩, by decide, by decide,
    isCodeword_small, tableInv_built_tiny, by decide, isCodeword_tiny, by decide,
    fun j h1 h2 => absurd (show j < 2 from h2) (by omega), by decide, by decide⟩

/-- A built and an unbuilt table. -/
theorem witness_NoErrorWordMisses :
    (TableInv (built small 0b111#3) ∧ IsCodeword small (built small 0b111#3).rx) ∧
    (TableInv { Regs.reset src with rx := 0x357#10 } ∧
      IsCodeword src { Regs.reset src with rx := 0x357#10 }.rx) :=
  ⟨⟨tableInv_built_small _, isCodeword_small⟩, tableInv_reset _, isCodeword_357⟩

/-- A hit (two flipped bits of the small code are a single flip of another codeword), a codeword error and,
with an unbuilt table, a miss. -/
theorem witness_MultiBitErrorOutcomes :
    TableInv (built small 0b100#3) ∧ IsCodeword small 0b111#3 ∧
    (built small 0b100#3).rx = 0b111#3 ^^^ 0b011#3 ∧
    (tableRead (built small 0b100#3).table (synp small 0b011#3)).valid = true ∧
    (built small 0b000#3).rx = 0b111#3 ^^^ 0b111#3 ∧
    TableInv { Regs.reset src with rx := 0x157#10 } ∧ IsCodeword src 0x357#10 ∧
    { Regs.reset src with rx := 0x157#10 }.rx = 0x357#10 ^^^ 0x200#10 ∧
    (tableRead (Regs.reset src).table (synp src 0x200#10)).valid = false :=
  ⟨tableInv_built_small _, isCodeword_small, by decide, by decide, by decide, tableInv_reset _,
    isCodeword_357, by decide, by decide⟩

theorem witness_UnbuiltTableAlwaysMisses :
    TableInv { Regs.reset src with rx := 0x157#10 } ∧
    (statusFields (Regs.reset src).status).tblv = false := ⟨tableInv_reset _, by decide⟩

/-! ### Witnesses: STATUS and whole-machine rules -/

theorem nextIsCommand_pending (v : Nat) : NextIsCommand (pending (.write 0x00#5 v)) (BitVec.ofNat 8 v) :=
  ⟨v, [], rfl, rfl⟩

theorem notCommand_read (a : BitVec 5) (w : BitVec 8) : ¬ NextIsCommand (pending (.read a)) w := by
  simp [NextIsCommand, pending, core]

theorem notReset_read (a : BitVec 5) : ¬ NextIsReset (pending (.read a)) := by
  simp [NextIsReset, pending, core]

theorem witness_ErrWrittenByEveryCommand :
    NextIsCommand (pending (.write 0x00#5 0x06)) 0x06#8 ∧ NextIsCommand (pending (.write 0x00#5 0)) 0x00#8 ∧
    (∀ w, ¬ NextIsCommand (pending (.read 0x01#5)) w) ∧ ¬ NextIsReset (pending (.read 0x01#5)) :=
  ⟨nextIsCommand_pending 6, nextIsCommand_pending 0, notCommand_read _, notReset_read _⟩

/-- A failing command from a state with no failure, and an access after a failure. -/
theorem witness_ErrsStickyUntilReset :
    (NextIsCommand (pending (.write 0x00#5 0x06)) 0x06#8 ∧ NoFailure (pending (.write 0x00#5 0x06)) ∧
      ∃ t, step (pending (.write 0x00#5 0x06)) = .next t ∧ (statusFields t.regs.status).err ≠ 0#3 ∧
        ¬ NoFailure t) ∧
    (∃ s t, step s = .next t ∧ ¬ NextIsReset s ∧ ¬ NoFailure s) :=
  ⟨⟨nextIsCommand_pending 6, show _ = _ by decide, _, rfl, by decide, show ¬ _ = _ by decide⟩,
    core src { Regs.reset src with status := 0x0008#16 } [], _, rfl, by simp [NextIsReset, core],
    show ¬ _ = _ by decide⟩

theorem witness_DstatWrittenByDecOnly :
    NextIsCommand (pending (.write 0x00#5 0x05)) 0x05#8 ∧
    (∃ t, step (pending (.read 0x01#5)) = .next t ∧ ¬ NextIsCommand (pending (.read 0x01#5)) 0x05#8 ∧
      ¬ NextIsReset (pending (.read 0x01#5))) ∧
    (∃ t, step (pending .reset) = .next t ∧ NextIsReset (pending .reset)) :=
  ⟨nextIsCommand_pending 5, ⟨_, rfl, notCommand_read _ _, notReset_read _⟩, _, rfl, [], rfl⟩

theorem witness_TblvSetByTbldUntilReset :
    NextIsCommand (pending (.write 0x00#5 0x04)) 0x04#8 ∧
    (∃ t, step (pending (.read 0x01#5)) = .next t ∧ ¬ NextIsCommand (pending (.read 0x01#5)) 0x04#8 ∧
      ¬ NextIsReset (pending (.read 0x01#5))) ∧
    (∃ t, step (pending .reset) = .next t ∧ NextIsReset (pending .reset)) :=
  ⟨nextIsCommand_pending 4, ⟨_, rfl, notCommand_read _ _, notReset_read _⟩, _, rfl, [], rfl⟩

/-- Each of the three errors. -/
theorem witness_FailingCommandWritesNothing :
    (∃ t, step (pending (.write 0x00#5 0xFF)) = .next t ∧ (statusFields t.regs.status).err = 1#3) ∧
    (∃ t, step (pending (.write 0x00#5 0x01)) = .next t ∧ (statusFields t.regs.status).err = 2#3) ∧
    (∃ t, step (pending (.write 0x00#5 0x02)) = .next t ∧ (statusFields t.regs.status).err = 3#3) ∧
    NextIsCommand (pending (.write 0x00#5 0xFF)) 0xFF#8 :=
  ⟨⟨_, rfl, by decide⟩, ⟨_, rfl, by decide⟩, ⟨_, rfl, by decide⟩, nextIsCommand_pending 0xFF⟩

/-- For each register a command that changes what it reads, and for TBLDATA a write of TBLKEY too. -/
theorem witness_ResultRegistersHaveTheirWriters :
    ¬ NextIsReset (pending (.write 0x00#5 0x06)) ∧
    readAfter (step (pending (.write 0x00#5 0x06))) .status ≠ some 0 ∧
    readAfter (step (core src (operands 1 1 1 1) [.write 0x00#5 1])) .res ≠ some 0 ∧
    readAfter (step (core src (operands 1 1 1 1) [.write 0x00#5 1])) .lenr ≠ some 0 ∧
    readAfter (step (core src (operands 1 1 2 2) [.write 0x00#5 2])) .res ≠ some 0 ∧
    readAfter (step (core src { Regs.reset src with msg := 1#4 } [.write 0x00#5 3])) .cw ≠ some 0 ∧
    readAfter (step (core src (builtSrc 0x356) [.write 0x00#5 5])) .syn ≠ some 0 ∧
    readAfter (step (core src (builtSrc 0x356) [.write 0x00#5 5])) .out ≠ some 0 ∧
    readAfter (step (core src (builtSrc 0x356) [.write 0x00#5 5])) .idx ≠ some 0 ∧
    readAfter (step (core src { Regs.reset src with tblkey := 0x18#6 } [.write 0x00#5 4])) .tbldata ≠ some 0 ∧
    readAfter (step (core src (builtSrc 0) [.write 0x0F#5 0x18])) .tbldata ≠ some 0 :=
  ⟨by simp [NextIsReset, pending, core], by decide⟩

/-- OPA and OPB differing only at and above their lengths, and length 0, where every bit is ignored. -/
theorem witness_IgnoredOperandBits :
    (∀ j, j < (operands 0b01 1 0b101 2).lena.toNat →
      (0b11#16).getLsbD j = (operands 0b01 1 0b101 2).opa.getLsbD j) ∧
    (∀ j, j < (operands 0b01 1 0b101 2).lenb.toNat →
      (0b001#16).getLsbD j = (operands 0b01 1 0b101 2).opb.getLsbD j) ∧
    (operands 1 0 1 0).lena.toNat = 0 := by decide

/-! ### Witnesses: invariants -/

/-- Registers with a table built that meet every invariant. -/
theorem runInv_built_small : RunInv (built small 0b111#3) where
  status := ⟨by decide, by decide, by decide⟩
  recorded := fun h => absurd h (by decide)
  result := ⟨by decide, fun j _ => BitVec.getLsbD_zero⟩
  codeword := isCodeword_zero_small
  table := tableInv_built_small _
  coll := collInv_built_small _
  idx := show 0 < 3 by decide

/-- A step from a state that meets every invariant, with a table built. -/
theorem witness_RunInvariantKept : ∃ s t : State, RunInv s.regs ∧ step s = .next t ∧
    (statusFields s.regs.status).tblv = true ∧ t.regs.lenr.toNat ≤ 7 :=
  ⟨core small (built small 0b111#3) [.write 0x00#5 0x05], _, runInv_built_small, rfl, by decide, by decide⟩

/-- A failing step from a legal STATUS with an error recorded in it. -/
theorem witness_StatusStaysLegal : ∃ s t : State, StatusLegal s.regs ∧ ErrRecorded s.regs ∧
    step s = .next t ∧ (statusFields s.regs.status).err = 3#3 :=
  ⟨core src { Regs.reset src with status := 0x00EB#16 } [.write 0x00#5 0xFF], _,
    ⟨by decide, by decide, by decide⟩, fun _ => by decide, rfl, by decide⟩

/-- RES full to its width, 2W - 1 = 31 bits. -/
theorem witness_ResultStaysZeroAboveLength : ∃ s t : State, ResultZeroAbove s.regs ∧ step s = .next t ∧
    s.regs.lenr.toNat = 31 :=
  ⟨core src { operands 1 1 1 1 with res := BitVec.allOnes 31, lenr := 31#6 } [.write 0x00#5 0x01], _,
    ⟨by decide, fun j h => BitVec.getLsbD_of_ge _ j h⟩, rfl, by decide⟩

theorem witness_CodewordStaysDivisible : ∃ s t : State, IsCodeword s.cfg s.regs.cw ∧ step s = .next t ∧
    s.regs.cw.toNat = 0x357 :=
  ⟨core src { Regs.reset src with cw := 0x357#10, msg := 1#4 } [.write 0x00#5 0x03], _, isCodeword_357, rfl,
    rfl⟩

/-- TBLD from the unbuilt table, and from a built one. -/
theorem witness_TableStaysFixed :
    (∃ t, IsCodeword src (pending (.write 0x00#5 4)).regs.cw ∧ TableInv (pending (.write 0x00#5 4)).regs ∧
      step (pending (.write 0x00#5 4)) = .next t) ∧
    (∃ t, IsCodeword small (built small 0#3).cw ∧ TableInv (built small 0#3) ∧
      step (core small (built small 0#3) [.write 0x00#5 4]) = .next t) :=
  ⟨⟨_, isCodeword_zero_src, .inl ⟨by decide, tableRead_tableClear⟩, rfl⟩,
    _, isCodeword_zero_small, tableInv_built_small _, rfl⟩

theorem witness_EncodeAndBuildCommute :
    IsCodeword src (core src { Regs.reset src with cw := 0x357#10, msg := 1#4 } []).regs.cw := isCodeword_357

theorem witness_RepeatedCommandsChangeNothing :
    ∀ i ∈ [Instr.nop, .enc, .tbld, .dec], i = .nop ∨ i = .enc ∨ i = .tbld ∨ i = .dec := by decide

/-! ### Witnesses: the pure functions and the parameters -/

/-- Polynomials of length 1 and longer, with a leading zero, zero and not zero. -/
theorem witness_MulpIsXorConvolution :
    1 ≤ (⟨1, 1#1⟩ : Poly).len ∧ 1 ≤ (⟨3, 0b011#3⟩ : Poly).len ∧
    mulp ⟨3, 0b011#3⟩ ⟨2, 0b01#2⟩ = ⟨4, 0b0011#4⟩ := by decide

theorem toPolynomial_one : toPolynomial ⟨1, 1#1⟩ = 1 := by
  simp [toPolynomial, Poly.coeff]

theorem witness_MulpIsPolynomialProduct :
    1 ≤ (⟨1, 1#1⟩ : Poly).len ∧ toPolynomial ⟨1, 1#1⟩ ≠ 0 ∧ 1 ≤ (⟨3, 0b011#3⟩ : Poly).len := by
  rw [toPolynomial_one]
  exact ⟨by decide, one_ne_zero, by decide⟩

theorem witness_MulpRingLaws :
    1 ≤ (⟨1, 1#1⟩ : Poly).len ∧ 1 ≤ (⟨2, 0b11#2⟩ : Poly).len ∧ 1 ≤ (⟨7, 0x43#7⟩ : Poly).len := by decide

/-- A dividend shorter than the divisor by one, as long as it with the leading term 0 and 1, and a divisor of
length 1. -/
theorem witness_ModpFollowsLongDivision :
    1 ≤ (⟨3, 0b111#3⟩ : Poly).len ∧ 2 < (⟨3, 0b111#3⟩ : Poly).len ∧ (⟨3, 0b111#3⟩ : Poly).len ≤ 2 + 1 ∧
    (0b011#3).getLsbD 2 = false ∧ (0b101#3).getLsbD 2 = true ∧ 1 ≤ (⟨1, 1#1⟩ : Poly).len := by decide

theorem witness_ModpResultLength :
    (⟨3, 0b111#3⟩ : Poly).len ≤ (⟨3, 0b001#3⟩ : Poly).len ∧
    (⟨2, 0b11#2⟩ : Poly).len < (⟨3, 0b111#3⟩ : Poly).len ∧ (⟨1, 1#1⟩ : Poly).len = 1 ∧
    1 ≤ (⟨3, 0b111#3⟩ : Poly).len := by decide

/-- The source's generator, a divisor of length 1, and a candidate remainder. -/
theorem witness_ModpIsPolynomialRemainder :
    1 ≤ src.gen.len ∧ src.gen.coeff (src.gen.len - 1) = true ∧ (⟨1, 1#1⟩ : Poly).coeff (1 - 1) = true ∧
    (0 : Polynomial (ZMod 2)).degree < ((src.gen.len - 1 : Nat) : WithBot Nat) ∧
    toPolynomial src.gen ∣ toPolynomial src.gen - 0 := by
  refine ⟨by decide, by decide, by decide, ?_, by simp⟩
  rw [Polynomial.degree_zero]
  exact WithBot.bot_lt_coe _

theorem witness_ModpLinearAndDivides :
    1 ≤ src.gen.len ∧ src.gen.coeff (src.gen.len - 1) = true ∧ (⟨1, 1#1⟩ : Poly).coeff (1 - 1) = true := by
  decide

/-- Lengths 1 and 7, a sequence that has a polynomial, and the first and last index. -/
theorem witness_CodecIsLossless :
    1 ≤ (⟨1, 0#1⟩ : Poly).len ∧ 1 ≤ (⟨7, 0x43#7⟩ : Poly).len ∧ fromSeq [true] = some ⟨1, 1#1⟩ ∧
    0 < (⟨7, 0x43#7⟩ : Poly).len ∧ 6 < (⟨7, 0x43#7⟩ : Poly).len := by decide

theorem witness_InvalidParametersRefused :
    (⟨1, 0b11, 1, 2, 1⟩ : Params).elaborate =
      some ⟨1, 0b11#2, 1, 1, by decide, by decide, by decide, by decide, by decide⟩ := by decide

/-- The least parameters: N = 2, W = 1. -/
theorem witness_WidthsAreLeast :
    1 ≤ tiny.IW ∧ tiny.N ≤ 2 ^ 1 ∧ tiny.W < 2 ^ 2 ∧ src.N ≤ 2 ^ 4 ∧ src.W < 2 ^ 5 := by decide

end Sys2Proof.Tests
end

section
/-! The scope's statements (00_scope.md): the parameters of a core, the widths derived from them, the codec
between a polynomial and its source sequence, and the configuration under a step. -/

/-! ### The derived widths (R7) -/

namespace Sys2Proof

theorem bitlength_le_iff {n w : Nat} (hn : n ≠ 0) : bitlength n ≤ w ↔ n < 2 ^ w :=
  Nat.log2_lt hn

theorem clog2_le_iff {n w : Nat} : clog2 n ≤ w ↔ n ≤ 2 ^ w := by
  unfold clog2
  split
  case isTrue h => simp [h.trans Nat.one_le_two_pow]
  case isFalse h =>
    have hlog : (n - 1).log2 < w ↔ n - 1 < 2 ^ w := Nat.log2_lt (by omega)
    omega

theorem Config.one_le_LW (c : Config) : 1 ≤ c.LW := Nat.le_add_left 1 _

theorem Config.one_le_IW (c : Config) : 1 ≤ c.IW := Nat.le_max_left 1 _

theorem Config.LW_le_iff (c : Config) {w : Nat} : c.LW ≤ w ↔ c.W < 2 ^ w :=
  bitlength_le_iff (Nat.one_le_iff_ne_zero.mp c.one_le_W)

theorem Config.IW_le_iff (c : Config) {w : Nat} (hw : 1 ≤ w) : c.IW ≤ w ↔ c.N ≤ 2 ^ w := by
  rw [Config.IW, max_le_iff, clog2_le_iff, and_iff_right hw]

/-- Settles O60: each width is at most `w` exactly when `w` bits hold what the width is for. -/
theorem widthsAreLeast : Obligations.WidthsAreLeast := fun c =>
  ⟨⟨c.one_le_LW, c.LW_le_iff.mp le_rfl, fun _ _ => c.LW_le_iff.mpr⟩,
    ⟨c.one_le_IW, c.N_le_two_pow_IW, fun _ hw => (c.IW_le_iff hw).mpr⟩⟩

/-! ### Elaboration (R7, R8) -/

/-- The parameters a core was elaborated from. -/
def Config.params (c : Config) : Params := ⟨c.P, c.G.toNat, c.K, c.N, c.W⟩

/-- The Boolean check, constraint by constraint (R7). -/
theorem Params.wf_iff (p : Params) : p.wf = true ↔
    1 ≤ p.P ∧ p.G < 2 ^ (p.P + 1) ∧ p.G.testBit p.P = true ∧ p.G.testBit 0 = true ∧ 1 ≤ p.K ∧
      p.N = p.K + p.P ∧ 1 ≤ p.W := by
  simp only [Params.wf, Bool.and_eq_true, decide_eq_true_eq, and_assoc]

theorem Config.params_wf (c : Config) : c.params.wf = true :=
  c.params.wf_iff.mpr ⟨c.one_le_P, c.G.isLt, c.G_lead, c.G_const, c.one_le_K, rfl, c.one_le_W⟩

/-- Elaboration changes no parameter: the bits of G that a core keeps are all of G's. -/
theorem Params.params_of_elaborate {p : Params} {c : Config} (h : p.elaborate = some c) :
    c.params = p := by
  simp only [Params.elaborate, Option.dite_none_right_eq_some, Option.ite_none_right_eq_some,
    Option.some.injEq] at h
  obtain ⟨_, _, _, _, _, ⟨hG, hN⟩, rfl⟩ := h
  obtain ⟨P, G, K, N, W⟩ := p
  simp only [Config.params, Params.mk.injEq, BitVec.toNat_ofNat, true_and, and_true]
  exact ⟨Nat.mod_eq_of_lt hG, hN.symm⟩

theorem Params.elaborate_isSome_of_wf {p : Params} (h : p.wf = true) : p.elaborate.isSome = true := by
  obtain ⟨hP, hG, hlead, hconst, hK, hN, hW⟩ := p.wf_iff.mp h
  have hbit (j : Nat) (hj : j < p.P + 1) : (BitVec.ofNat (p.P + 1) p.G).getLsbD j = p.G.testBit j := by
    rw [BitVec.getLsbD_ofNat, decide_eq_true hj, Bool.true_and]
  rw [Params.elaborate, dif_pos hP, dif_pos (by rw [hbit _ (by omega), hlead]),
    dif_pos (by rw [hbit _ (by omega), hconst]), dif_pos hK, dif_pos hW, if_pos ⟨hG, hN⟩]
  rfl

/-- Elaboration succeeds exactly on the parameters that pass the check (R8). -/
theorem Params.elaborate_isSome (p : Params) : p.elaborate.isSome = p.wf := by
  rw [Bool.eq_iff_iff]
  constructor
  · intro h
    obtain ⟨c, hc⟩ := Option.isSome_iff_exists.mp h
    rw [← Params.params_of_elaborate hc]
    exact c.params_wf
  · exact Params.elaborate_isSome_of_wf

/-- Settles O59: elaboration succeeds exactly on `Params.wf`, and `Config.params` takes its core back to the
parameters. -/
theorem invalidParametersRefused : Obligations.InvalidParametersRefused := by
  refine ⟨fun p => ?_, fun p c h => ?_, Params.elaborate_isSome⟩
  · rw [p.elaborate_isSome, p.wf_iff]
  · rw [← Params.params_of_elaborate h]
    exact ⟨rfl, rfl, rfl, rfl, rfl⟩

end Sys2Proof

namespace Sys2Proof.Machine

/-! ### The codec (R10, R53) -/

@[simp] theorem length_toSeq (p : Poly) : (toSeq p).length = p.len := by
  rw [toSeq, List.length_map, List.length_range]

/-- Element `k` of the source sequence: highest term first (R10). -/
theorem getElem?_toSeq (p : Poly) {k : Nat} (hk : k < p.len) :
    (toSeq p)[k]? = some (p.coeff (p.len - 1 - k)) := by
  rw [toSeq, List.getElem?_map, List.getElem?_range hk, Option.map_some]

/-- The polynomial FromBitVector makes of a sequence, the empty one included. -/
def ofSeq (l : List Bool) : Poly := ⟨l.length, BitVec.ofBoolListBE l⟩

@[simp] theorem len_ofSeq (l : List Bool) : (ofSeq l).len = l.length := rfl

theorem fromSeq_of_ne_nil {l : List Bool} (h : l ≠ []) : fromSeq l = some (ofSeq l) := if_neg h

/-- The coefficients of the polynomial of a sequence are its elements, counted from the end. -/
theorem coeff_ofSeq {l : List Bool} {j : Nat} (h : j < l.length) :
    (ofSeq l).coeff j = l[l.length - 1 - j] := by
  rw [Poly.coeff, ofSeq, BitVec.getLsbD_eq_getElem h, BitVec.getElem_ofBoolListBE]

theorem toSeq_ofSeq (l : List Bool) : toSeq (ofSeq l) = l := by
  refine List.ext_getElem (length_toSeq _) fun k _ hk => ?_
  have hpos : l.length - 1 - (l.length - 1 - k) = k := by omega
  rw [List.getElem_eq_iff, getElem?_toSeq _ hk, len_ofSeq, coeff_ofSeq (by omega)]
  simp only [hpos]

theorem ofSeq_toSeq (p : Poly) : ofSeq (toSeq p) = p := by
  refine Poly.eq_of_coeff (length_toSeq p) fun j => ?_
  rcases Nat.lt_or_ge j p.len with hj | hj
  · have hpos : p.len - 1 - (p.len - 1 - j) = j := by omega
    rw [coeff_ofSeq (by rwa [length_toSeq]), List.getElem_eq_iff, length_toSeq,
      getElem?_toSeq p (by omega), hpos]
  · rw [Poly.coeff_of_ge hj, Poly.coeff_of_ge (by rwa [len_ofSeq, length_toSeq])]

theorem fromSeq_toSeq (p : Poly) (h : 1 ≤ p.len) : fromSeq (toSeq p) = some p := by
  have hne : toSeq p ≠ [] := List.ne_nil_of_length_pos (by rwa [length_toSeq])
  rw [fromSeq_of_ne_nil hne, ofSeq_toSeq]

theorem fromSeq_nil : fromSeq [] = none := if_pos rfl

theorem toSeq_of_fromSeq {l : List Bool} {p : Poly} (h : fromSeq l = some p) :
    toSeq p = l ∧ p.len = l.length := by
  rcases eq_or_ne l [] with rfl | hl
  · rw [fromSeq_nil] at h
    contradiction
  · rw [fromSeq_of_ne_nil hl, Option.some.injEq] at h
    subst h
    exact ⟨toSeq_ofSeq l, rfl⟩

/-- Settles O57: each direction undoes the other, coefficient by coefficient. -/
theorem codecIsLossless : Obligations.CodecIsLossless :=
  ⟨fromSeq_toSeq, fun _ _ => toSeq_of_fromSeq, fromSeq_nil, fun p _ => getElem?_toSeq p⟩

/-! ### The configuration under a step (R7, R23) -/

theorem step_cfg {s t : State} (h : step s = .next t) : t.cfg = s.cfg := by
  obtain ⟨r, more, hs, -⟩ := step_cases s
  rw [hs, Host.Outcome.next.injEq] at h
  rw [← h]

/-- GEN has no storage and reads the generator (R23). -/
theorem hostRead_gen (s : State) : hostRead s RegName.gen.addr = s.cfg.G.toNat := rfl

/-- Settles O9: by `step_cases` a step keeps the configuration, and a read of GEN depends on nothing else. -/
theorem configurationNeverChanges : Obligations.ConfigurationNeverChanges := by
  intro s t h
  have hcfg : t.cfg = s.cfg := step_cfg h
  have hgen : hostRead t 0x02#5 = t.cfg.G.toNat := hostRead_gen t
  exact ⟨hcfg, by rw [hgen, hcfg]⟩

end Sys2Proof.Machine
end

section
/-! The state's statements (10_state.md): the register table, the fields of STATUS, who writes which register,
and the invariants that every step keeps. -/

namespace Sys2Proof.Machine

variable {c : Config}

/-! ### The register table and the STATUS word (R21, R34) -/

/-- Settles O5: the table holds for every configuration at once; the numbers are the 32 of a register field. -/
theorem registerTableAsSpecified : Obligations.RegisterTableAsSpecified := fun _ =>
  ⟨rfl, fun _ => ofAddr_eq_some.mpr rfl, by decide⟩

/-- Settles O32: each field is the word's value divided by its place and reduced to its width. -/
theorem statusWordIsItsFields : Obligations.StatusWordIsItsFields := by
  intro st
  have hlt : st.toNat < 2 ^ 16 := st.isLt
  simp only [statusFields, statusErr, statusErrs, statusDstat, statusTblv, statusColl, statusReserved,
    BitVec.extractLsb'_toNat, Nat.shiftRight_eq_div_pow, BitVec.getLsbD, Nat.toNat_testBit]
  omega

/-! ### What a command can do -/

/-- When a command fails, and with which code (R182 to R184, R186); `none` is a reserved word. -/
inductive FailCause (r : Regs c) : Option Instr → ErrCode → Prop
  | reserved : FailCause r none .illegalCmd
  | mulLength (hlen : mulBadLength r) : FailCause r (some .mul) .badLength
  | modDivisor (hdiv : modDegenerate r) : FailCause r (some .mod) .degenerateDivisor
  | modLength (hdiv : ¬ modDegenerate r) (hlen : modBadLength r) : FailCause r (some .mod) .badLength

theorem FailCause.code_ne_zero {r : Regs c} {o : Option Instr} {e : ErrCode} (h : FailCause r o e) :
    e.code ≠ 0#3 := by
  cases h <;> decide

/-- Everything a command can leave in the registers, and when; `none` is a reserved word. -/
inductive CommandStep (r : Regs c) : Option Instr → Regs c → Prop
  | fail {o : Option Instr} {e : ErrCode} (cause : FailCause r o e) : CommandStep r o (r.fail e)
  | nop : CommandStep r (some .nop) r.done
  | mul (hlen : ¬ mulBadLength r) :
      CommandStep r (some .mul) (r.withResult (mulp (operandA r) (operandB r))).done
  | mod (hdiv : ¬ modDegenerate r) (hlen : ¬ modBadLength r) :
      CommandStep r (some .mod) (r.withResult (modp (operandA r) (operandB r))).done
  | enc : CommandStep r (some .enc) (r.withCodeword (encodeMessage r)).done
  | tbld : CommandStep r (some .tbld) (r.withTable (buildTable c r.cw).1 (buildTable c r.cw).2).done
  | hit (hv : (tableRead r.table (synp c r.rx)).valid = true) :
      CommandStep r (some .dec) (r.withDecode (synp c r.rx)
        (flipPosition c r.rx (tableRead r.table (synp c r.rx)).pos.toNat)
        (tableRead r.table (synp c r.rx)).pos .corrected).done
  | miss (hv : (tableRead r.table (synp c r.rx)).valid = false) :
      CommandStep r (some .dec) (r.withDecode (synp c r.rx) r.rx 0#_ .uncorrectable).done

/-- A command leaves what `CommandStep` says. -/
theorem commandStep_instrRegs (r : Regs c) (i : Instr) : CommandStep r (some i) (instrRegs r i) := by
  cases i with
  | nop => exact .nop
  | mul =>
    by_cases hlen : mulBadLength r
    · simpa only [instrRegs, if_pos hlen] using .fail (.mulLength hlen)
    · simpa only [instrRegs, if_neg hlen] using .mul hlen
  | mod =>
    by_cases hdiv : modDegenerate r
    · simpa only [instrRegs, if_pos hdiv] using .fail (.modDivisor hdiv)
    · by_cases hlen : modBadLength r
      · simpa only [instrRegs, if_neg hdiv, if_pos hlen] using .fail (.modLength hdiv hlen)
      · simpa only [instrRegs, if_neg hdiv, if_neg hlen] using .mod hdiv hlen
  | enc => exact .enc
  | tbld => exact .tbld
  | dec =>
    cases hv : (tableRead r.table (synp c r.rx)).valid with
    | true => simpa only [instrRegs, correct_of_hit r hv] using .hit hv
    | false => simpa only [instrRegs, correct_of_miss r hv] using .miss hv

/-- A command word leaves what `CommandStep` says of the command it decodes to. -/
theorem commandStep_commandRegs (r : Regs c) (w : BitVec 8) :
    CommandStep r (decode w) (commandRegs r w) := by
  unfold commandRegs
  cases decode w with
  | some i => exact commandStep_instrRegs r i
  | none => exact .fail .reserved

/-! ### The frame of each command (R21) -/

theorem SameExcept.mono {l l' : List RegName} {r r' : Regs c} (h : SameExcept l r r') (hl : l ⊆ l') :
    SameExcept l' r r' := fun n hn => h n fun hm => hn (hl hm)

theorem SameExcept.trans {l : List RegName} {r r' r'' : Regs c} (h : SameExcept l r r')
    (h' : SameExcept l r' r'') : SameExcept l r r'' := fun n hn => (h' n hn).trans (h n hn)

theorem sameExcept_withStatus (r : Regs c) (st : BitVec 16) : SameExcept [.status] r (r.withStatus st) := by
  intro n hn
  cases n
  case status => simp at hn
  all_goals rfl

theorem sameExcept_withResult (r : Regs c) (p : Poly) : SameExcept [.res, .lenr] r (r.withResult p) := by
  intro n hn
  cases n
  case res | lenr => simp at hn
  all_goals rfl

theorem sameExcept_withCodeword (r : Regs c) (v : BitVec c.N) :
    SameExcept [.cw] r (r.withCodeword v) := by
  intro n hn
  cases n
  case cw => simp at hn
  all_goals rfl

theorem sameExcept_withTable (r : Regs c) (t : Vector (Entry c) (2 ^ c.P)) (k : Bool) :
    SameExcept [.status, .tbldata] r (r.withTable t k) := by
  intro n hn
  cases n
  case status | tbldata => simp at hn
  all_goals rfl

theorem sameExcept_withDecode (r : Regs c) (y : BitVec c.P) (o : BitVec c.N) (x : BitVec c.IW)
    (d : DecodeStatus) : SameExcept [.status, .syn, .out, .idx] r (r.withDecode y o x d) := by
  intro n hn
  cases n
  case status | syn | out | idx => simp at hn
  all_goals rfl

/-- Ending a command adds STATUS to what it has written. -/
theorem SameExcept.done {l : List RegName} {r r' : Regs c} (h : SameExcept l r r') (hl : .status ∈ l) :
    SameExcept l r r'.done :=
  h.trans ((sameExcept_withStatus r' _).mono (by simpa using hl))

/-- R21's column of writers, read by command: the registers whose value a command can change. -/
def commandWrites : Option Instr → List RegName
  | none => [.status]
  | some .nop => [.status]
  | some .mul => [.status, .res, .lenr]
  | some .mod => [.status, .res, .lenr]
  | some .enc => [.status, .cw]
  | some .tbld => [.status, .tbldata]
  | some .dec => [.status, .syn, .out, .idx]

theorem status_mem_commandWrites (o : Option Instr) : .status ∈ commandWrites o := by
  rcases o with _ | i
  · decide
  · cases i <;> decide

theorem regAccess_of_mem_commandWrites {o : Option Instr} {n : RegName} (h : n ∈ commandWrites o) :
    regAccess n = .readOnly := by
  rcases o with _ | i
  · revert n
    decide
  · revert n
    cases i <;> decide

/-- A command changes no register but its own. -/
theorem CommandStep.sameExcept {o : Option Instr} {r r' : Regs c} (h : CommandStep r o r') :
    SameExcept (commandWrites o) r r' := by
  have hst := status_mem_commandWrites o
  cases h with
  | fail => exact (sameExcept_withStatus r _).mono (by simpa using hst)
  | nop => exact sameExcept_withStatus r _
  | mul | mod => exact ((sameExcept_withResult r _).mono (by decide)).done hst
  | enc => exact ((sameExcept_withCodeword r _).mono (by decide)).done hst
  | tbld => exact (sameExcept_withTable r _ _).done hst
  | hit | miss => exact (sameExcept_withDecode r _ _ _ _).done hst

theorem CommandStep.read_readWrite {o : Option Instr} {r r' : Regs c} (h : CommandStep r o r')
    {n : RegName} (hn : regAccess n = .readWrite) : r'.read n = r.read n :=
  h.sameExcept n fun hm => by simp [regAccess_of_mem_commandWrites hm] at hn

/-- Settles O38: by `exec_eq` a command writes registers only, and by its frame no read-write one. -/
theorem commandsKeepHostRegisters : Obligations.CommandsKeepHostRegisters := by
  intro s i
  have hkeep (n : RegName) (hn : regAccess n = .readWrite) :
      (instrRegs s.regs i).read n = s.regs.read n :=
    (commandStep_instrRegs s.regs i).read_readWrite hn
  exact ⟨instrRegs s.regs i, exec_eq i s, hkeep .opa rfl, hkeep .lena rfl, hkeep .opb rfl,
    hkeep .lenb rfl, hkeep .msg rfl, hkeep .rx rfl, hkeep .tblkey rfl⟩

/-! ### The operand bits above the lengths (R24) -/

theorem operand_congr {w n : Nat} {v v' : BitVec w} (h : ∀ j, j < n → v.getLsbD j = v'.getLsbD j) :
    operand v n = operand v' n := by
  refine Poly.eq_of_coeff rfl fun j => ?_
  rw [coeff_operand, coeff_operand]
  by_cases hj : j < n
  · rw [h j hj]
  · simp [hj]

/-- A command runs alike from operand registers that agree below their lengths. -/
theorem instrRegs_congr_operands (r : Regs c) (i : Instr) {a b : BitVec c.W}
    (ha : operand a r.lena.toNat = operand r.opa r.lena.toNat)
    (hb : operand b r.lenb.toNat = operand r.opb r.lenb.toNat) :
    instrRegs { r with opa := a, opb := b } i = { instrRegs r i with opa := a, opb := b } := by
  cases i with
  | nop => rfl
  | mul =>
    simp only [instrRegs, operandA, operandB, ha, hb]
    split <;> rfl
  | mod =>
    simp only [instrRegs, operandA, operandB, ha, hb]
    split
    · rfl
    · split <;> rfl
  | enc | tbld => rfl
  | dec =>
    cases hv : (tableRead r.table (synp c r.rx)).valid with
    | true =>
      rw [instrRegs, instrRegs, correct_of_hit r hv,
        correct_of_hit { r with opa := a, opb := b } hv]
      rfl
    | false =>
      rw [instrRegs, instrRegs, correct_of_miss r hv,
        correct_of_miss { r with opa := a, opb := b } hv]
      rfl

/-- Settles O40: commands see OPA and OPB through `operand` only. -/
theorem ignoredOperandBits : Obligations.IgnoredOperandBits := by
  intro s i a b ha hb
  have hregs : instrRegs { s.regs with opa := a, opb := b } i =
      { instrRegs s.regs i with opa := a, opb := b } :=
    instrRegs_congr_operands s.regs i (operand_congr ha) (operand_congr hb)
  exact ⟨instrRegs s.regs i, exec_eq i s,
    (exec_eq i _).trans (congrArg (fun r => Host.Outcome.next (s.withRegs r)) hregs)⟩

/-! ### One step, taken by its access -/

theorem NextIsCommand.not_reset {s : State} {w : BitVec 8} (h : NextIsCommand s w) : ¬ NextIsReset s := by
  obtain ⟨v, rest, hp, -⟩ := h
  simp [NextIsReset, hp]

/-- A CMD write runs its command and takes nothing but itself off the port. -/
theorem step_command {s : State} {w : BitVec 8} (h : NextIsCommand s w) :
    step s = .next (({ s with port := s.port.tail } : State).withRegs (commandRegs s.regs w)) := by
  obtain ⟨cfg, regs, port, replies⟩ := s
  obtain ⟨v, rest, hp, rfl⟩ := h
  obtain rfl : port = .write 0x00#5 v :: rest := hp
  exact acceptWrite_cmd _ v

/-- What a step has left, with the next state named. -/
theorem regsStep_of_step {s t : State} (h : step s = .next t) : ∃ (r : Regs s.cfg) (more : List Reply),
    t = ⟨s.cfg, r, s.port.tail, s.replies ++ more⟩ ∧ RegsStep s r := by
  obtain ⟨r, more, hs, hr⟩ := step_cases s
  exact ⟨r, more, Host.Outcome.next.inj (h.symm.trans hs), hr⟩

/-- A view of the registers that the host's next write or command keeps, every step but a reset keeps. -/
theorem step_keeps_view {α : Sort*} (f : {c : Config} → Regs c → α) {s t : State}
    (h : step s = .next t) (hr : ¬ NextIsReset s)
    (hwrite : ∀ n v, regAccess n = .readWrite → (∃ rest, s.port = .write n.addr v :: rest) →
      f (s.regs.write v n) = f s.regs)
    (hcmd : ∀ w r, NextIsCommand s w → CommandStep s.regs (decode w) r → f r = f s.regs) :
    f t.regs = f s.regs := by
  obtain ⟨r, more, rfl, hs⟩ := regsStep_of_step h
  cases hs with
  | same => rfl
  | write n v hn _ _ hp => exact hwrite n v hn hp
  | command w hw => exact hcmd w _ hw (commandStep_commandRegs s.regs w)
  | reset hr' => exact absurd hr' hr

/-- A predicate that reset meets, and that host writes and commands keep, every step keeps. -/
theorem step_keeps_inv {I : {c : Config} → Regs c → Prop} (hreset : ∀ c, I (Regs.reset c))
    (hwrite : ∀ {c : Config} (r : Regs c) (n : RegName) (v : Nat), I r → I (r.write v n))
    (hcmd : ∀ {c : Config} {r r' : Regs c} {o : Option Instr}, CommandStep r o r' → I r → I r')
    {s t : State} (hs : I s.regs) (h : step s = .next t) : I t.regs := by
  obtain ⟨r, more, rfl, hstep⟩ := regsStep_of_step h
  cases hstep with
  | same => exact hs
  | write n v => exact hwrite s.regs n v hs
  | command w => exact hcmd (commandStep_commandRegs s.regs w) hs
  | reset => exact hreset s.cfg

/-! ### STATUS, field by field (R34 to R38) -/

theorem statusFields_reset (c : Config) :
    statusFields (Regs.reset c).status = ⟨0#3, false, 0#2, false, false, 0#8⟩ :=
  show statusFields 0#16 = _ by decide

theorem decode_eq_some_iff {w : BitVec 8} {i : Instr} : decode w = some i ↔ w = encode i := by
  revert w
  cases i <;> decide

/-- The code a command leaves in ERR is the code of its failure, or 0. -/
theorem CommandStep.err_cases {o : Option Instr} {r r' : Regs c} (h : CommandStep r o r') :
    (∃ e, FailCause r o e ∧ (statusFields r'.status).err = e.code) ∨ (statusFields r'.status).err = 0#3 := by
  cases h with
  | fail cause => exact .inl ⟨_, cause, by simp⟩
  | nop | mul | mod | enc | tbld | hit | miss => simp [ErrCode.code]

/-- ERRS afterwards: it was set, or this command has failed (R36). -/
theorem CommandStep.errs_iff {o : Option Instr} {r r' : Regs c} (h : CommandStep r o r') :
    (statusFields r'.status).errs = true ↔
      (statusFields r.status).errs = true ∨ (statusFields r'.status).err ≠ 0#3 := by
  cases h with
  | fail cause => simp [cause.code_ne_zero]
  | nop | mul | mod | enc | tbld | hit | miss => simp [ErrCode.code]

theorem CommandStep.dstat_of_dec {r r' : Regs c} (h : CommandStep r (some .dec) r') :
    (statusFields r'.status).dstat = 1#2 ∨ (statusFields r'.status).dstat = 2#2 := by
  cases h with
  | fail cause => cases cause
  | hit | miss => simp [DecodeStatus.code]

theorem CommandStep.dstat_of_ne_dec {o : Option Instr} {r r' : Regs c} (h : CommandStep r o r')
    (ho : o ≠ some .dec) : (statusFields r'.status).dstat = (statusFields r.status).dstat := by
  cases h with
  | fail | nop | mul | mod | enc | tbld => simp
  | hit | miss => exact absurd rfl ho

theorem CommandStep.tblv_of_tbld {r r' : Regs c} (h : CommandStep r (some .tbld) r') :
    (statusFields r'.status).tblv = true := by
  cases h with
  | fail cause => cases cause
  | tbld => simp

theorem CommandStep.tblv_of_ne_tbld {o : Option Instr} {r r' : Regs c} (h : CommandStep r o r')
    (ho : o ≠ some .tbld) : (statusFields r'.status).tblv = (statusFields r.status).tblv := by
  cases h with
  | fail | nop | mul | mod | enc => simp
  | tbld => exact absurd rfl ho
  | hit | miss => simp

/-- A command word other than the command's own decodes to something else. -/
theorem decode_ne_of_not_next {s : State} {i : Instr} (hi : ¬ NextIsCommand s (encode i)) {w : BitVec 8}
    (hw : NextIsCommand s w) : decode w ≠ some i := fun h => hi (decode_eq_some_iff.mp h ▸ hw)

/-- STATUS reads 0 in every field after a reset (R210). -/
theorem statusFields_of_reset {s t : State} (h : step s = .next t) (hr : NextIsReset s) :
    statusFields t.regs.status = ⟨0#3, false, 0#2, false, false, 0#8⟩ := by
  obtain ⟨r, more, rfl, hs⟩ := regsStep_of_step h
  cases hs with
  | same _ hr' => exact absurd hr hr'
  | write _ _ _ _ hr' => exact absurd hr hr'
  | command _ _ hr' => exact absurd hr hr'
  | reset => exact statusFields_reset s.cfg

/-- Settles O33: a command's code is that of its cause, and each cause is a word; the host writes no STATUS. -/
theorem errWrittenByEveryCommand : Obligations.ErrWrittenByEveryCommand := by
  refine ⟨fun s w hw => ⟨_, step_command hw, ?_⟩, fun s hc hr => ?_⟩
  · rcases (commandStep_commandRegs s.regs w).err_cases with ⟨e, cause, he⟩ | he
    · generalize hd : decode w = o at cause
      cases cause with
      | reserved => exact .inr (.inl ⟨he, rfl⟩)
      | mulLength => exact .inr (.inr (.inl ⟨he, .inl (decode_eq_some_iff.mp hd)⟩))
      | modLength => exact .inr (.inr (.inl ⟨he, .inr (decode_eq_some_iff.mp hd)⟩))
      | modDivisor => exact .inr (.inr (.inr ⟨he, decode_eq_some_iff.mp hd⟩))
    · exact .inl he
  · obtain ⟨r, more, hs, -⟩ := step_cases s
    exact ⟨_, hs, step_keeps_view Regs.status hs hr (fun n v _ _ => write_status s.regs v n)
      fun w _ hw => absurd hw (hc w)⟩

/-- ERRS after a step without a reset: it was set, or the step was a failing command. -/
theorem step_errs {s t : State} (h : step s = .next t) (hr : ¬ NextIsReset s) :
    (statusFields t.regs.status).errs = true ↔ (statusFields s.regs.status).errs = true ∨
      ∃ w, NextIsCommand s w ∧ (statusFields t.regs.status).err ≠ 0#3 := by
  by_cases hc : ∃ w, NextIsCommand s w
  · obtain ⟨w, hw⟩ := hc
    obtain rfl := Host.Outcome.next.inj ((step_command hw).symm.trans h)
    rw [State.withRegs_regs, (commandStep_commandRegs s.regs w).errs_iff]
    exact or_congr_right ⟨fun he => ⟨w, hw, he⟩, fun ⟨_, _, he⟩ => he⟩
  · have hst : t.regs.status = s.regs.status :=
      step_keeps_view Regs.status h hr (fun n v _ _ => write_status s.regs v n)
        fun w _ hw => absurd ⟨w, hw⟩ hc
    rw [hst, or_iff_left fun ⟨w, hw, _⟩ => hc ⟨w, hw⟩]

/-- Settles O34: by `step_errs`, and a reset leaves no failure. -/
theorem errsStickyUntilReset : Obligations.ErrsStickyUntilReset := by
  simp only [Obligations.ErrsStickyUntilReset, NoFailure, Bool.not_eq_false]
  refine ⟨fun s t w hw h he => ?_, fun s t h hr hs => ?_, fun s t h hs ht => ?_⟩
  · exact (step_errs h hw.not_reset).mpr (.inr ⟨w, hw, he⟩)
  · exact (step_errs h hr).mpr (.inl hs)
  · by_cases hr : NextIsReset s
    · simp [statusFields_of_reset h hr] at ht
    · exact ((step_errs h hr).mp ht).resolve_left (by simp [hs])

/-- Settles O35: DSTAT is kept by host writes and by every command whose word is not DEC's. -/
theorem dstatWrittenByDecOnly : Obligations.DstatWrittenByDecOnly := by
  refine ⟨fun s hw => ⟨_, step_command hw, ?_⟩, fun s t h hw hr => ?_, fun s t h hr => ?_⟩
  · exact (commandStep_commandRegs s.regs 0x05#8).dstat_of_dec
  · exact step_keeps_view (fun r => (statusFields r.status).dstat) h hr (fun n v _ _ => by simp)
      fun w r hw' hcmd => hcmd.dstat_of_ne_dec (decode_ne_of_not_next (i := .dec) hw hw')
  · rw [statusFields_of_reset h hr]

/-- Settles O36: TBLV is kept by host writes and by every command whose word is not TBLD's. -/
theorem tblvSetByTbldUntilReset : Obligations.TblvSetByTbldUntilReset := by
  refine ⟨fun s hw => ⟨_, step_command hw, ?_⟩, fun s t h hw hr => ?_, fun s t h hr => ?_⟩
  · exact (commandStep_commandRegs s.regs 0x04#8).tblv_of_tbld
  · exact step_keeps_view (fun r => (statusFields r.status).tblv) h hr (fun n v _ _ => by simp)
      fun w r hw' hcmd => hcmd.tblv_of_ne_tbld (decode_ne_of_not_next (i := .tbld) hw hw')
  · rw [statusFields_of_reset h hr]

/-! ### Who writes each register (R21) -/

theorem hostRead_addr (s : State) (n : RegName) : hostRead s n.addr = (s.regs.read n).toNat := by
  simp only [hostRead, ofAddr_eq_some.mpr rfl]

/-- TBLDATA changes under the host's writes only with TBLKEY (R32). -/
theorem tbldata_write_other (r : Regs c) (v : Nat) {n : RegName} (h : n ≠ .tblkey) :
    (r.write v n).tbldata = r.tbldata :=
  tbldata_congr (write_table r v n) (read_write_other r v n .tblkey h.symm (by decide))

/-- A read-only register that reads otherwise after a step without a reset was written by a command of
R21's table, or is TBLDATA under a new TBLKEY. -/
theorem writer_of_read_changed {s t : State} (h : step s = .next t) (hr : ¬ NextIsReset s) (n : RegName)
    (hn : regAccess n = .readOnly) (hne : hostRead t n.addr ≠ hostRead s n.addr) :
    (∃ w, NextIsCommand s w ∧ n ∈ commandWrites (decode w)) ∨
      (n = .tbldata ∧ ∃ v rest, s.port = .write RegName.tblkey.addr v :: rest) := by
  by_contra! hno
  obtain ⟨hcmd, hkey⟩ := hno
  refine hne ?_
  rw [hostRead_addr, hostRead_addr]
  refine step_keeps_view (fun r => (r.read n).toNat) h hr (fun m v hm ⟨rest, hp⟩ => ?_) fun w r hw hs => ?_
  · by_cases ht : n = .tbldata
    · subst ht
      have hm' : m ≠ .tblkey := by
        rintro rfl
        exact hkey rfl v rest hp
      exact congrArg BitVec.toNat (tbldata_write_other s.regs v hm')
    · have hnm : n ≠ m := by
        rintro rfl
        simp [hn] at hm
      rw [read_write_other s.regs v m n hnm ht]
  · rw [hs.sameExcept n (hcmd w hw)]

/-- The same for a register other than TBLDATA, with the words of the commands that write it. -/
theorem next_writer_of_read_changed {s t : State} (h : step s = .next t) (hr : ¬ NextIsReset s)
    (n : RegName) (hn : regAccess n = .readOnly) (hd : n ≠ .tbldata) {ws : List (BitVec 8)}
    (hws : ∀ w, n ∈ commandWrites (decode w) → w ∈ ws) (hne : hostRead t n.addr ≠ hostRead s n.addr) :
    ∃ w ∈ ws, NextIsCommand s w := by
  obtain ⟨w, hw, hm⟩ := (writer_of_read_changed h hr n hn hne).resolve_right fun h' => hd h'.1
  exact ⟨w, hws w hm, hw⟩

/-- Settles O39: the words of each register's writers are read off `commandWrites`. -/
theorem resultRegistersHaveTheirWriters : Obligations.ResultRegistersHaveTheirWriters := by
  intro s t h hr
  have hwriter := next_writer_of_read_changed h hr
  refine ⟨fun hne => ?_, (configurationNeverChanges s t h).2, fun hne => ?_, fun hne => ?_, fun hne => ?_,
    fun hne => ?_, fun hne => ?_, fun hne => ?_, fun hne => ?_⟩
  · obtain ⟨w, hw, -⟩ := (writer_of_read_changed h hr .status rfl hne).resolve_right (by simp)
    exact ⟨w, hw⟩
  · simpa using hwriter .res rfl (by decide) (ws := [0x01#8, 0x02#8]) (by decide) hne
  · simpa using hwriter .lenr rfl (by decide) (ws := [0x01#8, 0x02#8]) (by decide) hne
  · simpa using hwriter .cw rfl (by decide) (ws := [0x03#8]) (by decide) hne
  · simpa using hwriter .syn rfl (by decide) (ws := [0x05#8]) (by decide) hne
  · simpa using hwriter .out rfl (by decide) (ws := [0x05#8]) (by decide) hne
  · simpa using hwriter .idx rfl (by decide) (ws := [0x05#8]) (by decide) hne
  · have htbld : ∀ w, .tbldata ∈ commandWrites (decode w) → w = 0x04#8 := by decide
    obtain ⟨w, hw, hm⟩ | ⟨-, hkey⟩ := writer_of_read_changed h hr .tbldata rfl hne
    · exact .inl (htbld w hm ▸ hw)
    · exact .inr hkey

/-! ### STATUS stays legal (R34 to R36) -/

theorem ErrCode.toNat_code_le (e : ErrCode) : e.code.toNat ≤ 3 := by
  cases e <;> decide

theorem DecodeStatus.toNat_code_le (d : DecodeStatus) : d.code.toNat ≤ 2 := by
  cases d <;> decide

theorem CommandStep.statusLegal {o : Option Instr} {r r' : Regs c} (h : CommandStep r o r')
    (hr : StatusLegal r) : StatusLegal r' := by
  obtain ⟨hres, -, hdst⟩ := hr
  have herr := ErrCode.toNat_code_le
  have hdst' := DecodeStatus.toNat_code_le
  cases h with
  | fail | nop | mul | mod | enc | tbld => simp [StatusLegal, hres, herr, hdst]
  | hit | miss => simp [StatusLegal, hres, herr, hdst']

theorem statusLegal_reset (c : Config) : StatusLegal (Regs.reset c) := by
  simp [StatusLegal, statusFields_reset]

/-- Whatever STATUS was, an error that a command leaves it has recorded. -/
theorem CommandStep.errRecorded {o : Option Instr} {r r' : Regs c} (h : CommandStep r o r') :
    ErrRecorded r' := fun he => h.errs_iff.mpr (.inr he)

theorem errRecorded_reset (c : Config) : ErrRecorded (Regs.reset c) := by
  simp [ErrRecorded, statusFields_reset]

/-- Settles O41: no host write reaches STATUS, and each command leaves it legal. -/
theorem statusStaysLegal : Obligations.StatusStaysLegal := fun _ _ hl he h =>
  step_keeps_inv (I := fun r => StatusLegal r ∧ ErrRecorded r)
    (fun c => ⟨statusLegal_reset c, errRecorded_reset c⟩)
    (fun r n v hr => by simpa only [StatusLegal, ErrRecorded, write_status] using hr)
    (fun hcmd hr => ⟨hcmd.statusLegal hr.1, hcmd.errRecorded⟩) ⟨hl, he⟩ h

/-! ### The registers no host write reaches -/

/-- A host write stores to read-write registers only, so a read-only one other than TBLDATA stands. -/
theorem read_write_readOnly (r : Regs c) (v : Nat) (n : RegName) {m : RegName}
    (hm : regAccess m = .readOnly) (hd : m ≠ .tbldata) : (r.write v n).read m = r.read m := by
  by_cases hn : regAccess n = .readWrite
  · refine read_write_other r v n m ?_ hd
    rintro rfl
    simp [hm] at hn
  · rw [write_ignored r v n hn]

@[simp] theorem write_res (r : Regs c) (v : Nat) (n : RegName) : (r.write v n).res = r.res :=
  read_write_readOnly r v n (m := .res) rfl (by decide)

@[simp] theorem write_lenr (r : Regs c) (v : Nat) (n : RegName) : (r.write v n).lenr = r.lenr :=
  read_write_readOnly r v n (m := .lenr) rfl (by decide)

@[simp] theorem write_cw (r : Regs c) (v : Nat) (n : RegName) : (r.write v n).cw = r.cw :=
  read_write_readOnly r v n (m := .cw) rfl (by decide)

@[simp] theorem write_idx (r : Regs c) (v : Nat) (n : RegName) : (r.write v n).idx = r.idx :=
  read_write_readOnly r v n (m := .idx) rfl (by decide)

/-! ### RES is zero above LENR (R25) -/

theorem len_mulp_le {r : Regs c} (h : ¬ mulBadLength r) :
    (mulp (operandA r) (operandB r)).len ≤ 2 * c.W - 1 := by
  simp only [mulBadLength, mulp_len, operandA, operandB, operand] at h ⊢
  omega

theorem len_modp_le {r : Regs c} (hd : ¬ modDegenerate r) (h : ¬ modBadLength r) :
    (modp (operandA r) (operandB r)).len ≤ 2 * c.W - 1 := by
  simp only [modDegenerate, modBadLength] at hd h
  have hlen : (modp (operandA r) (operandB r)).len = min r.lena.toNat (r.lenb.toNat - 1) :=
    modpLoop_len (operandB r) (Nat.pos_of_ne_zero hd) r.lena.toNat _
  omega

theorem resultZeroAbove_withResult (r : Regs c) {p : Poly} (hp : p.len ≤ 2 * c.W - 1) :
    ResultZeroAbove (r.withResult p) := by
  rw [ResultZeroAbove, Regs.withResult_lenr, toNat_lenr hp]
  refine ⟨hp, fun j hj => ?_⟩
  rw [getLsbD_withResult_res r p hp, Poly.coeff_of_ge hj]

theorem CommandStep.resultZeroAbove {o : Option Instr} {r r' : Regs c} (h : CommandStep r o r')
    (hr : ResultZeroAbove r) : ResultZeroAbove r' := by
  cases h with
  | fail | nop => exact hr
  | mul hlen => exact resultZeroAbove_withResult r (len_mulp_le hlen)
  | mod hdiv hlen => exact resultZeroAbove_withResult r (len_modp_le hdiv hlen)
  | enc | tbld | hit | miss => exact hr

theorem resultZeroAbove_reset (c : Config) : ResultZeroAbove (Regs.reset c) := by
  simp [ResultZeroAbove, Regs.reset]

theorem ResultZeroAbove.write {r : Regs c} (hr : ResultZeroAbove r) (n : RegName) (v : Nat) :
    ResultZeroAbove (r.write v n) := by
  simpa only [ResultZeroAbove, write_res, write_lenr] using hr

/-- Settles O42: only MUL, MOD and a reset write RES and LENR, and they write both. -/
theorem resultStaysZeroAboveLength : Obligations.ResultStaysZeroAboveLength := fun _ _ hs h =>
  step_keeps_inv resultZeroAbove_reset (fun _ n v hr => hr.write n v)
    (fun hcmd hr => hcmd.resultZeroAbove hr) hs h

/-! ### ENC leaves a codeword (R40, R120) -/

theorem coeff_monomial (n j : Nat) : (monomial n).coeff j = decide (j = n) := by
  rw [Poly.coeff, monomial, BitVec.getLsbD_shiftLeft, BitVec.getLsbD_one]
  by_cases hj : j = n
  · simp [hj]
  · by_cases hlt : j < n
    · simp [hj, hlt]
    · simp [hj, show j - n ≠ 0 by omega]

/-- Bit `k` of a product by x^n: of the rows of R100 only row n is there. -/
theorem coeff_mulp_monomial (a : Poly) (n k : Nat) (hk : k < a.len + n) :
    (mulp a (monomial n)).coeff k = (decide (n ≤ k) && a.coeff (k - n)) := by
  have hrows : ((Finset.range (n + 1)).filter fun j =>
      (monomial n).coeff j = true ∧ j ≤ k ∧ a.coeff (k - j) = true) =
      if n ≤ k ∧ a.coeff (k - n) = true then {n} else ∅ := by
    ext j
    simp only [coeff_monomial, decide_eq_true_eq, Finset.mem_filter, Finset.mem_range]
    split
    case isTrue h =>
      rw [Finset.mem_singleton]
      refine ⟨fun hj => hj.2.1, ?_⟩
      rintro rfl
      exact ⟨by omega, rfl, h⟩
    case isFalse h =>
      refine iff_of_false ?_ (Finset.notMem_empty j)
      rintro ⟨-, rfl, hj⟩
      exact h hj
  have hodd : (mulp a (monomial n)).coeff k = true ↔ _ :=
    getLsbD_mulp_rows a (monomial n) (a.len + n) (n + 1) k hk
  rw [Bool.eq_iff_iff, hodd, hrows, Bool.and_eq_true, decide_eq_true_eq]
  split
  case isTrue h | isFalse h => simp [h]

/-- A product by x^n is a shift by n places. -/
theorem mulp_monomial (a : Poly) (n : Nat) :
    mulp a (monomial n) = ⟨a.len + n, a.val.setWidth (a.len + n) <<< n⟩ := by
  refine Poly.eq_of_coeff rfl fun k => ?_
  by_cases hk : k < a.len + n
  · rw [coeff_mulp_monomial a n k hk, Poly.coeff, Poly.coeff, BitVec.getLsbD_shiftLeft,
      BitVec.getLsbD_setWidth]
    by_cases hn : n ≤ k
    · simp [hn, hk, show k - n < a.len + n by omega]
    · simp [hn, Nat.lt_of_not_le hn]
  · rw [Poly.coeff_of_ge (Nat.le_of_not_lt hk), Poly.coeff_of_ge (Nat.le_of_not_lt hk)]

/-- The check bits are the syndrome of the message in its place. -/
theorem checkBits_eq_synp (r : Regs c) :
    checkBits r = synp c (r.msg.setWidth c.N <<< c.P) := by
  rw [checkBits, shiftedMessage, mulp_monomial]
  rfl

/-- R120's `{m, r}` as a sum: the message in its place and the check bits in theirs. -/
theorem encodeMessage_eq_xor (r : Regs c) :
    encodeMessage r = (r.msg.setWidth c.N <<< c.P) ^^^ (checkBits r).setWidth c.N := by
  apply BitVec.eq_of_getLsbD_eq
  intro j hj
  rw [encodeMessage, BitVec.getLsbD_append, BitVec.getLsbD_xor, BitVec.getLsbD_shiftLeft,
    BitVec.getLsbD_setWidth, BitVec.getLsbD_setWidth]
  by_cases hp : j < c.P
  · simp [hp, hj]
  · simp [hp, hj, show j - c.P < c.N by omega, BitVec.getLsbD_of_ge (checkBits r) j (by omega)]

/-- Check bits, standing alone, are their own syndrome. -/
theorem synp_setWidth (v : BitVec c.P) : synp c (v.setWidth c.N) = v := by
  apply BitVec.eq_of_getLsbD_eq
  intro j hj
  have hsmall : ∀ i, c.P ≤ i → (v.setWidth c.N).getLsbD i = false := fun i hi => by
    simp [BitVec.getLsbD_setWidth, BitVec.getLsbD_of_ge v i hi]
  rw [getLsbD_synp_of_small _ hsmall, BitVec.getLsbD_setWidth, decide_eq_true (hj.trans c.P_lt_N),
    Bool.true_and]

theorem isCodeword_encodeMessage (r : Regs c) : IsCodeword c (encodeMessage r) := by
  rw [isCodeword_iff, encodeMessage_eq_xor, synp_xor, synp_setWidth, checkBits_eq_synp, BitVec.xor_self]

theorem isCodeword_zero (c : Config) : IsCodeword c 0#c.N := by
  rw [isCodeword_iff]
  simpa using synp_setWidth (c := c) 0#c.P

theorem CommandStep.isCodeword {o : Option Instr} {r r' : Regs c} (h : CommandStep r o r')
    (hr : IsCodeword c r.cw) : IsCodeword c r'.cw := by
  cases h with
  | fail | nop | mul | mod => exact hr
  | enc => exact isCodeword_encodeMessage r
  | tbld | hit | miss => exact hr

/-- Settles O43: only ENC and a reset write CW, and each leaves a codeword. -/
theorem codewordStaysDivisible : Obligations.CodewordStaysDivisible := fun _ _ hs h =>
  step_keeps_inv (I := fun {c} r => IsCodeword c r.cw) isCodeword_zero
    (fun _ _ _ hr => by rwa [write_cw]) (fun hcmd hr => hcmd.isCodeword hr) hs h

/-! ### TBLD from a codeword leaves the fixed table (R41, R136, R137, R139) -/

/-- Flipping a codeword, the syndrome is the flipped position's own (R136). -/
theorem synp_flipPosition {v : BitVec c.N} (hv : IsCodeword c v) (i : Nat) :
    synp c (flipPosition c v i) = positionSyndrome c i := by
  rw [flipPosition, synp_xor, (isCodeword_iff v).mp hv, BitVec.zero_xor, positionSyndrome]

theorem fixedTable_buildTable {v : BitVec c.N} (hv : IsCodeword c v) :
    FixedTable c (buildTable c v).1 := by
  intro key
  have hbuilt := (buildTable_prefix v c.N).1 key
  simp only [synp_flipPosition hv] at hbuilt
  rcases hbuilt with ⟨i, hi, hkey, hlast, hread⟩ | ⟨hnone, hread⟩
  · rw [buildTable, hread]
    refine ⟨fun _ => ?_, fun h => absurd h (by simp)⟩
    simp only [toNat_position hi]
    exact ⟨hi, hkey, hlast⟩
  · rw [buildTable, hread]
    exact ⟨fun h => absurd h (by simp [Entry.invalid]), fun _ => ⟨rfl, hnone⟩⟩

theorem buildTable_collision {v : BitVec c.N} (hv : IsCodeword c v) :
    (buildTable c v).2 = true ↔ Collision c := by
  rw [buildTable, (buildTable_prefix v c.N).2]
  simp only [synp_flipPosition hv, Collision]

theorem CommandStep.tableInv {o : Option Instr} {r r' : Regs c} (h : CommandStep r o r')
    (hcw : IsCodeword c r.cw) (hr : TableInv r) : TableInv r' := by
  cases h with
  | fail | nop | mul | mod | enc => simpa [TableInv] using hr
  | tbld => exact .inr ⟨by simp, fixedTable_buildTable hcw⟩
  | hit | miss => simpa [TableInv] using hr

theorem tableInv_reset (c : Config) : TableInv (Regs.reset c) :=
  .inl ⟨by rw [statusFields_reset], tableRead_tableClear⟩

theorem TableInv.write {r : Regs c} (hr : TableInv r) (n : RegName) (v : Nat) :
    TableInv (r.write v n) := by
  simpa only [TableInv, write_status, write_table] using hr

/-- Settles O44: together with R40's invariant, which TBLD needs. -/
theorem tableStaysFixed : Obligations.TableStaysFixed := fun _ _ hcw hs h =>
  (step_keeps_inv (I := fun {c} r => IsCodeword c r.cw ∧ TableInv r)
    (fun c => ⟨isCodeword_zero c, tableInv_reset c⟩)
    (fun _ n v hr => ⟨by rw [write_cw]; exact hr.1, hr.2.write n v⟩)
    (fun hcmd hr => ⟨hcmd.isCodeword hr.1, hcmd.tableInv hr.1 hr.2⟩) ⟨hcw, hs⟩ h).2

/-! ### All invariants together (R31, R39) -/

theorem CommandStep.collInv {o : Option Instr} {r r' : Regs c} (h : CommandStep r o r')
    (hcw : IsCodeword c r.cw) (hr : CollInv r) : CollInv r' := by
  cases h with
  | fail | nop | mul | mod | enc => simpa [CollInv] using hr
  | tbld => simp [CollInv, buildTable_collision hcw]
  | hit | miss => simpa [CollInv] using hr

theorem collInv_reset (c : Config) : CollInv (Regs.reset c) := fun h => by
  simp [statusFields_reset] at h

/-- A valid entry of the table names a position of the codeword. -/
theorem TableInv.pos_lt {r : Regs c} (hr : TableInv r) {key : BitVec c.P}
    (hv : (tableRead r.table key).valid = true) : (tableRead r.table key).pos.toNat < c.N := by
  rcases hr with ⟨-, hinvalid⟩ | ⟨-, hfixed⟩
  · rw [hinvalid key] at hv
    exact absurd hv (by simp [Entry.invalid])
  · exact ((hfixed key).1 hv).1

theorem CommandStep.idxInRange {o : Option Instr} {r r' : Regs c} (h : CommandStep r o r')
    (ht : TableInv r) (hr : IdxInRange r) : IdxInRange r' := by
  cases h with
  | fail | nop | mul | mod | enc | tbld => exact hr
  | hit hv => exact ht.pos_lt hv
  | miss => simp [IdxInRange, c.N_pos]

theorem runInv_reset (c : Config) : RunInv (Regs.reset c) where
  status := statusLegal_reset c
  recorded := errRecorded_reset c
  result := resultZeroAbove_reset c
  codeword := isCodeword_zero c
  table := tableInv_reset c
  coll := collInv_reset c
  idx := by simp [IdxInRange, Regs.reset, c.N_pos]

theorem RunInv.write {r : Regs c} (hr : RunInv r) (n : RegName) (v : Nat) : RunInv (r.write v n) where
  status := by simpa only [StatusLegal, write_status] using hr.status
  recorded := by simpa only [ErrRecorded, write_status] using hr.recorded
  result := hr.result.write n v
  codeword := by simpa only [write_cw] using hr.codeword
  table := hr.table.write n v
  coll := by simpa only [CollInv, write_status] using hr.coll
  idx := by simpa only [IdxInRange, write_idx] using hr.idx

theorem CommandStep.runInv {o : Option Instr} {r r' : Regs c} (h : CommandStep r o r')
    (hr : RunInv r) : RunInv r' where
  status := h.statusLegal hr.status
  recorded := h.errRecorded
  result := h.resultZeroAbove hr.result
  codeword := h.isCodeword hr.codeword
  table := h.tableInv hr.codeword hr.table
  coll := h.collInv hr.codeword hr.coll
  idx := h.idxInRange hr.table hr.idx

/-- Settles O45: TBLD keeps the table's invariants by the codeword's, DEC keeps IDX's by the table's. -/
theorem runInvariantKept : Obligations.RunInvariantKept := fun _ _ hs h =>
  step_keeps_inv runInv_reset (fun _ n v hr => hr.write n v) (fun hcmd hr => hcmd.runInv hr) hs h

end Sys2Proof.Machine
end

section
/-! The host port's statements (20_memory.md): what one read and one write access do. -/

namespace Sys2Proof.Machine

variable {c : Config}

/-- The numbers 0x11 to 0x1F name no register (R57). -/
theorem ofAddr_eq_none {a : BitVec 5} : RegName.ofAddr a = none ↔ 0x11 ≤ a.toNat := by
  obtain ⟨-, -, hnone⟩ := registerTableAsSpecified Config.default
  exact hnone a

/-! ### Reads (R55) -/

/-- A read goes to the host's replies and takes nothing but itself off the port. -/
theorem step_read {s : State} {a : BitVec 5} {rest : List PortEvent} (h : s.port = .read a :: rest) :
    step s = .next { s with port := rest, replies := s.replies ++ [⟨a, hostRead s a⟩] } := by
  simp only [step, serve, h]
  rfl

theorem hostRead_of_eq_addr (s : State) {a : BitVec 5} (n : RegName) (h : a = n.addr) :
    hostRead s a = (s.regs.read n).toNat := by
  rw [h, hostRead_addr]

theorem hostRead_unmapped (s : State) {a : BitVec 5} (h : 0x11 ≤ a.toNat) : hostRead s a = 0 := by
  simp only [hostRead, ofAddr_eq_none.mpr h]

/-- TBLDATA as a number: `valid` stands above the IW bits of `pos` (R32). -/
theorem toNat_tbldata (r : Regs c) :
    r.tbldata.toNat = (if (tableRead r.table r.tblkey).valid then 2 ^ c.IW else 0) +
      (tableRead r.table r.tblkey).pos.toNat := by
  rw [Regs.tbldata, lookup_eq_tableRead, BitVec.toNat_cons']
  cases (tableRead r.table r.tblkey).valid with
  | true => simp [Nat.one_shiftLeft]
  | false => simp

/-- Settles O6: the reply is `hostRead`, which is the register's value register by register; CMD's is 0 and
TBLDATA's is the entry at TBLKEY. -/
theorem hostReadReturnsCurrentValue : Obligations.HostReadReturnsCurrentValue := by
  intro s a rest hp
  have hread := hostRead_of_eq_addr s (a := a)
  exact ⟨hostRead s a, step_read hp, hread .cmd, hread .status, hread .gen, hread .opa, hread .lena,
    hread .opb, hread .lenb, hread .res, hread .lenr, hread .msg, hread .cw, hread .rx, hread .syn,
    hread .out, hread .idx, hread .tblkey,
    fun h => (hread .tbldata h).trans (toNat_tbldata s.regs), hostRead_unmapped s⟩

/-! ### Writes (R56, R57) -/

/-- A write is the port's write on the state without it. -/
theorem step_write {s : State} {a : BitVec 5} {v : Nat} {rest : List PortEvent}
    (h : s.port = .write a v :: rest) : step s = acceptWrite { s with port := rest } a v := by
  simp only [step, serve, h]
  rfl

/-- A write to a register other than CMD does what `Regs.write` does. -/
theorem step_write_register {s : State} {n : RegName} {v : Nat} {rest : List PortEvent}
    (h : s.port = .write n.addr v :: rest) (hn : n ≠ .cmd) :
    step s = .next (({ s with port := rest } : State).withRegs (s.regs.write v n)) :=
  (step_write h).trans (acceptWrite_register _ v n hn)

theorem step_write_cmd {s : State} {v : Nat} {rest : List PortEvent}
    (h : s.port = .write RegName.cmd.addr v :: rest) :
    step s = runCommand { s with port := rest } (BitVec.ofNat 8 v) := by
  rw [step_write h, runCommand_eq]
  exact acceptWrite_cmd _ v

theorem step_write_readOnly {s : State} {n : RegName} {v : Nat} {rest : List PortEvent}
    (h : s.port = .write n.addr v :: rest) (hn : regAccess n = .readOnly) :
    step s = .next { s with port := rest } := by
  have hcmd : n ≠ .cmd := by
    rintro rfl
    contradiction
  rw [step_write_register h hcmd, write_ignored s.regs v n (by simp [hn])]
  rfl

theorem step_write_unmapped {s : State} {a : BitVec 5} {v : Nat} {rest : List PortEvent}
    (h : s.port = .write a v :: rest) (ha : 0x11 ≤ a.toNat) : step s = .next { s with port := rest } :=
  (step_write h).trans (acceptWrite_unmapped _ a v (ofAddr_eq_none.mpr ha))

/-- The frame of a host write: the register it names, and TBLDATA, which is a view at TBLKEY. -/
theorem sameExcept_write (r : Regs c) (v : Nat) (n : RegName) :
    SameExcept [n, .tbldata] r (r.write v n) := by
  intro m hm
  obtain ⟨hne, hview⟩ : m ≠ n ∧ m ≠ .tbldata := by simpa using hm
  exact read_write_other r v n m hne hview

/-- Settles O7: one law of a write for each class of register number. -/
theorem hostWriteStoresLowBits : Obligations.HostWriteStoresLowBits := by
  intro s a v rest hp
  refine ⟨fun n hn ha => ?readWrite, fun ha => ?cmd, fun n hn ha => ?readOnly, step_write_unmapped hp⟩
  case readWrite =>
    subst ha
    have hacc : ∀ n ∈ [RegName.opa, .lena, .opb, .lenb, .msg, .rx, .tblkey],
        regAccess n = .readWrite ∧ n ≠ .cmd := by decide
    obtain ⟨hrw, hcmd⟩ := hacc n hn
    exact ⟨s.regs.write v n, step_write_register hp hcmd, read_write_same s.regs v n hrw,
      sameExcept_write s.regs v n, write_table s.regs v n⟩
  case cmd =>
    subst ha
    exact step_write_cmd hp
  case readOnly =>
    subst ha
    have hacc : ∀ n ∈ [RegName.status, .gen, .res, .lenr, .cw, .syn, .out, .idx, .tbldata],
        regAccess n = .readOnly := by decide
    exact step_write_readOnly hp (hacc n hn)

end Sys2Proof.Machine
end

section
/-! The encoding's statements (30_encoding.md): the command words, and what a CMD write of one does. -/

namespace Sys2Proof.Machine

/-! ### The command words (R70, R73, R74) -/

/-- Settles O1: the table's words are the six encodings, and `decode` undoes `encode` and nothing else. -/
theorem commandWordsDecodeAsTabled : Obligations.CommandWordsDecodeAsTabled :=
  ⟨rfl, rfl, rfl, rfl, rfl, rfl, fun _ _ => decode_eq_some_iff⟩

/-- The reserved words are those above DEC's (R74). -/
theorem decode_eq_none_iff {w : BitVec 8} : decode w = none ↔ 0x05 < w.toNat := by
  revert w
  decide

/-! ### A CMD write's value (R75) -/

/-- The command of a written value is that of its low 8 bits. -/
theorem decode_ofNat_eq_some_iff {v : Nat} {i : Instr} :
    decode (BitVec.ofNat 8 v) = some i ↔ v % 256 = (encode i).toNat := by
  rw [decode_eq_some_iff, ← BitVec.toNat_inj, BitVec.toNat_ofNat]

theorem decode_ofNat_eq_none_iff {v : Nat} :
    decode (BitVec.ofNat 8 v) = none ↔ 0x05 < v % 256 := by
  rw [decode_eq_none_iff, BitVec.toNat_ofNat]

theorem runCommand_of_some {w : BitVec 8} {i : Instr} (s : State) (h : decode w = some i) :
    runCommand s w = exec i s := by
  simp only [runCommand, h]

theorem runCommand_of_none {w : BitVec 8} (s : State) (h : decode w = none) :
    runCommand s w = illegalCommand s := by
  simp only [runCommand, h]

theorem step_write_command {s : State} {v : Nat} {rest : List PortEvent} {i : Instr}
    (h : s.port = .write RegName.cmd.addr v :: rest) (hi : decode (BitVec.ofNat 8 v) = some i) :
    step s = exec i { s with port := rest } :=
  (step_write_cmd h).trans (runCommand_of_some _ hi)

theorem step_write_reserved {s : State} {v : Nat} {rest : List PortEvent}
    (h : s.port = .write RegName.cmd.addr v :: rest) (hv : decode (BitVec.ofNat 8 v) = none) :
    step s = illegalCommand { s with port := rest } :=
  (step_write_cmd h).trans (runCommand_of_none _ hv)

/-- Settles O2: each of the six cases is one encoded command, the last is the reserved words. -/
theorem cmdWriteExecutesFirstMatchingCase : Obligations.CmdWriteExecutesFirstMatchingCase := by
  intro s v rest hp
  have hrun (i : Instr) (h : v % 256 = (encode i).toNat) : step s = exec i { s with port := rest } :=
    step_write_command hp (decode_ofNat_eq_some_iff.mpr h)
  exact ⟨hrun .nop, hrun .mul, hrun .mod, hrun .enc, hrun .tbld, hrun .dec,
    fun h => step_write_reserved hp (decode_ofNat_eq_none_iff.mpr h)⟩

/-! ### A command placed at the port (R64) -/

/-- A word of 8 bits is placed as a CMD write of its low 8 bits. -/
theorem withFetchWord_port (s : State) (w : Nat) :
    (s.withFetchWord 8 w).port = .write RegName.cmd.addr (w % 256) :: s.port := rfl

/-- A table word of 8 bits decodes as the CMD write that `withFetchWord` makes of it. -/
theorem decodeTableWord_eight (w : Nat) : decodeTableWord 8 w = decode (BitVec.ofNat 8 (w % 256)) := by
  have hlow : BitVec.ofNat 8 (w % 256) = BitVec.ofNat 8 w := BitVec.eq_of_toNat_eq (by simp)
  rw [decodeTableWord, if_pos rfl, hlow]

/-- Settles O3: a placed word is the CMD write at the head of the port, and taking it off leaves the state
it was placed in. -/
theorem stepRunsDecodedInstruction : Obligations.StepRunsDecodedInstruction := by
  refine ⟨fun _ _ _ _ => step_write_command, fun s w i hi => ?placed⟩
  case placed =>
    rw [decodeTableWord_eight] at hi
    exact step_write_command (withFetchWord_port s w) hi

end Sys2Proof.Machine
end

section
/-! The arithmetic's statements (40_gf2_arith.md): MULP and MODP read as operations on polynomials over GF(2),
and the commands MUL and MOD that run them. -/

/-! ### Coefficients and lengths (R10) -/

namespace Sys2Proof

theorem Poly.lt_len_of_coeff {p : Poly} {j : Nat} (h : p.coeff j = true) : j < p.len :=
  BitVec.lt_of_getLsbD h

theorem Poly.eq_empty_of_len {p : Poly} (h : p.len = 0) : p = ⟨0, 0#0⟩ :=
  Poly.eq_of_coeff h fun j => by rw [Poly.coeff_of_ge (by omega), Poly.coeff_of_ge (Nat.zero_le j)]

theorem Poly.testBit_toNat (p : Poly) (k : Nat) : p.toNat.testBit k = p.coeff k :=
  BitVec.testBit_toNat p.val

end Sys2Proof

namespace Sys2Proof.Machine

open Polynomial (X)

variable {c : Config}

/-! ### A value as a polynomial over GF(2) (R10, R104) -/

theorem coeff_toPolynomial (p : Poly) (k : Nat) :
    (toPolynomial p).coeff k = if p.coeff k = true then 1 else 0 := by
  rw [toPolynomial, Polynomial.finsetSum_coeff, Finset.sum_eq_single k]
  · split <;> simp
  · intro j _ hj
    split <;> simp [Polynomial.coeff_X_pow, hj.symm]
  · intro hk
    simp [Poly.coeff_of_ge (Nat.le_of_not_lt (mt Finset.mem_range.mpr hk))]

theorem coeff_toPolynomial_eq_one_iff (p : Poly) (k : Nat) :
    (toPolynomial p).coeff k = 1 ↔ p.coeff k = true := by
  rw [coeff_toPolynomial]
  split <;> simp [*]

/-- Addition of coefficients is XOR (R107 (1)). -/
theorem ite_eq_add_iff_eq_xor (x y z : Bool) :
    (if x = true then (1 : ZMod 2) else 0) = (if y = true then 1 else 0) + (if z = true then 1 else 0) ↔
      x = (y ^^ z) := by
  revert x y z
  decide

theorem toPolynomial_eq_add_iff (p q r : Poly) :
    toPolynomial p = toPolynomial q + toPolynomial r ↔ ∀ k, p.coeff k = (q.coeff k ^^ r.coeff k) := by
  simp only [Polynomial.ext_iff, Polynomial.coeff_add, coeff_toPolynomial, ite_eq_add_iff_eq_xor]

theorem toPolynomial_empty : toPolynomial ⟨0, 0#0⟩ = 0 := rfl

theorem toPolynomial_eq_iff (p q : Poly) :
    toPolynomial p = toPolynomial q ↔ ∀ k, p.coeff k = q.coeff k := by
  simpa [toPolynomial_empty, Poly.coeff] using toPolynomial_eq_add_iff p q ⟨0, 0#0⟩

theorem eq_of_toPolynomial {p q : Poly} (hl : p.len = q.len)
    (h : toPolynomial p = toPolynomial q) : p = q :=
  Poly.eq_of_coeff hl ((toPolynomial_eq_iff p q).mp h)

theorem toNat_eq_iff_toPolynomial (p q : Poly) : p.toNat = q.toNat ↔ toPolynomial p = toPolynomial q := by
  simp only [toPolynomial_eq_iff, Nat.eq_iff_testBit_eq, Poly.testBit_toNat]

/-- XOR of values is addition of the polynomials they stand for. -/
theorem toNat_eq_xor_iff_toPolynomial (p q r : Poly) :
    p.toNat = q.toNat ^^^ r.toNat ↔ toPolynomial p = toPolynomial q + toPolynomial r := by
  simp only [toPolynomial_eq_add_iff, Nat.eq_iff_testBit_eq, Nat.testBit_xor, Poly.testBit_toNat]

theorem toPolynomial_xor {n : Nat} (u v : BitVec n) :
    toPolynomial ⟨n, u ^^^ v⟩ = toPolynomial ⟨n, u⟩ + toPolynomial ⟨n, v⟩ :=
  (toPolynomial_eq_add_iff _ _ _).mpr fun _ => BitVec.getLsbD_xor

theorem polyEqual_iff (a b : Poly) : polyEqual a b = true ↔ toPolynomial a = toPolynomial b := by
  rw [polyEqual, beq_iff_eq, toNat_eq_iff_toPolynomial]

/-- The zero polynomial is equal to the empty one. -/
theorem polyZero_iff (a : Poly) : polyZero a = true ↔ toPolynomial a = 0 :=
  polyEqual_iff a ⟨0, 0#0⟩

/-- Settles O56: equal numbers and equal polynomials both mean that all coefficients agree. -/
theorem polynomialEqualityIgnoresLeadingZeros : Obligations.PolynomialEqualityIgnoresLeadingZeros :=
  ⟨polyEqual_iff, polyZero_iff⟩

/-! ### MULP is the product (R100, R107) -/

/-- The rows of MULP that reach bit `k`: the terms x^j of `b` that meet a term x^(k-j) of `a`. -/
def mulpTerms (a b : Poly) (k : Nat) : Finset Nat :=
  (Finset.range b.len).filter fun j => b.coeff j = true ∧ j ≤ k ∧ a.coeff (k - j) = true

theorem mem_mulpTerms {a b : Poly} {k j : Nat} :
    j ∈ mulpTerms a b k ↔ j < b.len ∧ b.coeff j = true ∧ j ≤ k ∧ a.coeff (k - j) = true := by
  rw [mulpTerms, Finset.mem_filter, Finset.mem_range]

theorem coeff_mulp (a b : Poly) (k : Nat) : (mulp a b).coeff k = true ↔ Odd (mulpTerms a b k).card := by
  by_cases hk : k < a.len + b.len - 1
  · exact getLsbD_mulp_rows a b (a.len + b.len - 1) b.len k hk
  · have hnone : mulpTerms a b k = ∅ := by
      refine Finset.eq_empty_of_forall_notMem fun j hj => ?_
      obtain ⟨hb, -, hjk, ha⟩ := mem_mulpTerms.mp hj
      have := Poly.lt_len_of_coeff ha
      omega
    rw [Poly.coeff_of_ge (Nat.le_of_not_lt hk), hnone]
    simp

/-- R100's pairs (i, j) with i + j = k, counted by their j. -/
theorem convolutionBit_iff (a b : Poly) (k : Nat) :
    convolutionBit a.len a.val b.len b.val k ↔ Odd (mulpTerms a b k).card := by
  rw [convolutionBit, Finset.card_nbij' Prod.snd (fun j => (k - j, j))]
  · rintro ⟨i, j⟩ hij
    simp only [Finset.coe_filter, Finset.mem_product, Finset.mem_range, Set.mem_ofPred_eq] at hij
    obtain ⟨⟨-, hj⟩, rfl, ha, hb⟩ := hij
    rw [Finset.mem_coe, mem_mulpTerms, Nat.add_sub_cancel]
    exact ⟨hj, hb, Nat.le_add_left j i, ha⟩
  · intro j hj
    obtain ⟨hj, hb, hjk, ha⟩ := mem_mulpTerms.mp hj
    simp only [Finset.coe_filter, Finset.mem_product, Finset.mem_range, Set.mem_ofPred_eq]
    exact ⟨⟨Poly.lt_len_of_coeff ha, hj⟩, Nat.sub_add_cancel hjk, ha, hb⟩
  · rintro ⟨i, j⟩ hij
    simp only [Finset.coe_filter, Set.mem_ofPred_eq] at hij
    simp [← hij.2.1]
  · intro j _
    rfl

theorem coeff_mulp_iff_convolutionBit (a b : Poly) (k : Nat) :
    (mulp a b).coeff k = true ↔ convolutionBit a.len a.val b.len b.val k :=
  (coeff_mulp a b k).trans (convolutionBit_iff a b k).symm

/-- Settles O49: both count the rows of MULP that reach the coefficient. -/
theorem mulpIsXorConvolution : Obligations.MulpIsXorConvolution := fun a b _ _ =>
  ⟨mulp_len a b, coeff_mulp_iff_convolutionBit a b⟩

/-- The product's coefficient is the number of MULP's rows that reach it, modulo 2. -/
theorem coeff_toPolynomial_mul (a b : Poly) (k : Nat) :
    (toPolynomial a * toPolynomial b).coeff k = (mulpTerms a b k).card := by
  have hrow (j : Nat) : (toPolynomial a * if b.coeff j = true then X ^ j else 0).coeff k =
      if b.coeff j = true ∧ j ≤ k ∧ a.coeff (k - j) = true then 1 else 0 := by
    by_cases hb : b.coeff j = true
    · simp [hb, Polynomial.coeff_mul_X_pow', coeff_toPolynomial, ite_and]
    · simp [hb]
  conv_lhs => rw [toPolynomial.eq_def b]
  rw [Finset.mul_sum, Polynomial.finsetSum_coeff, Finset.sum_congr rfl fun j _ => hrow j,
    Finset.sum_boole, mulpTerms]

theorem toPolynomial_mulp (a b : Poly) :
    toPolynomial (mulp a b) = toPolynomial a * toPolynomial b := by
  ext k
  rw [coeff_toPolynomial, coeff_toPolynomial_mul]
  split
  case isTrue h => exact (ZMod.natCast_eq_one_iff_odd.mpr ((coeff_mulp a b k).mp h)).symm
  case isFalse h =>
    rw [coeff_mulp, Nat.not_odd_iff_even] at h
    exact (ZMod.natCast_eq_zero_iff_even.mpr h).symm

/-- Settles O50: the degree law is the one of polynomials over a field. -/
theorem mulpIsPolynomialProduct : Obligations.MulpIsPolynomialProduct := by
  intro a b _ _
  rw [toPolynomial_mulp]
  exact ⟨rfl, fun ha hb => ⟨mul_ne_zero ha hb, Polynomial.natDegree_mul ha hb⟩⟩

/-- Settles O51: the laws of polynomial multiplication, with the lengths compared beside them. -/
theorem mulpRingLaws : Obligations.MulpRingLaws := by
  refine ⟨fun a b _ _ => ?comm, fun a b d _ hb _ => ?assoc, fun a n u v _ _ => ?distrib⟩
  case comm =>
    refine eq_of_toPolynomial ?_ ?_
    · rw [mulp_len, mulp_len, Nat.add_comm]
    · rw [toPolynomial_mulp, toPolynomial_mulp, mul_comm]
  case assoc =>
    refine eq_of_toPolynomial ?_ ?_
    · simp only [mulp_len]
      omega
    · simp only [toPolynomial_mulp, mul_assoc]
  case distrib =>
    simp only [toNat_eq_xor_iff_toPolynomial, toPolynomial_mulp, toPolynomial_xor, mul_add]

/-! ### MODP is long division (R101, R102) -/

/-- Settles O52: the next dividend is `modpStep`'s. -/
theorem modpFollowsLongDivision : Obligations.ModpFollowsLongDivision := by
  refine fun b _ => ⟨modpLoop_stop b, fun n d hn =>
    ⟨modpStep b n d, modpLoop_succ b n d hn, fun hlead j hj => ?dropped, fun hlead j hj => ?divided⟩⟩
  case dropped => rw [getLsbD_modpStep b n d j hj, hlead, Bool.false_and, Bool.xor_false]
  case divided =>
    rw [getLsbD_modpStep b n d j hj, hlead]
    split
    case isTrue ha | isFalse ha => simp [ha]

theorem modp_len (a b : Poly) (hb : 1 ≤ b.len) : (modp a b).len = min a.len (b.len - 1) :=
  modpLoop_len b hb a.len a.val

theorem modp_of_len_lt {a b : Poly} (h : a.len < b.len) : modp a b = a :=
  modpLoop_stop b a.len a.val h

/-- Settles O53: the loop takes the dividend's length down to `b.len - 1`. -/
theorem modpResultLength : Obligations.ModpResultLength := by
  intro a b hb
  have hlen : (modp a b).len = min a.len (b.len - 1) := modp_len a b hb
  exact ⟨fun h => by omega, modp_of_len_lt, fun h => Poly.eq_empty_of_len (by omega), by omega⟩

/-! ### With a leading coefficient 1 MODP is the remainder (R103, R107) -/

theorem coeff_toPolynomial_of_ge {p : Poly} {k : Nat} (h : p.len ≤ k) : (toPolynomial p).coeff k = 0 := by
  simp [coeff_toPolynomial, Poly.coeff_of_ge h]

theorem degree_toPolynomial_le (p : Poly) :
    (toPolynomial p).degree ≤ ((p.len - 1 : Nat) : WithBot Nat) := by
  rw [Polynomial.degree_le_iff_coeff_zero]
  exact fun k hk => coeff_toPolynomial_of_ge (Nat.le_of_pred_lt (Nat.cast_lt.mp hk))

theorem degree_toPolynomial_lt (p : Poly) : (toPolynomial p).degree < (p.len : WithBot Nat) := by
  rw [Polynomial.degree_lt_iff_coeff_zero]
  exact fun k => coeff_toPolynomial_of_ge

section Leading

variable {b : Poly} (hlead : b.coeff (b.len - 1) = true)

include hlead

theorem one_le_len_of_leading : 1 ≤ b.len :=
  Nat.one_le_of_lt (Poly.lt_len_of_coeff hlead)

theorem coeff_toPolynomial_of_leading : (toPolynomial b).coeff (b.len - 1) = 1 :=
  (coeff_toPolynomial_eq_one_iff b _).mpr hlead

theorem degree_toPolynomial_of_leading : (toPolynomial b).degree = ((b.len - 1 : Nat) : WithBot Nat) :=
  Polynomial.degree_eq_of_le_of_coeff_ne_zero (degree_toPolynomial_le b)
    (by rw [coeff_toPolynomial_of_leading hlead]; exact one_ne_zero)

theorem monic_toPolynomial_of_leading : (toPolynomial b).Monic :=
  Polynomial.monic_of_degree_le _ (degree_toPolynomial_le b) (coeff_toPolynomial_of_leading hlead)

/-- An iteration takes the divisor's multiple aligned at the leading term off the dividend, when that term
is there. -/
theorem coeff_eq_modpStep_xor {n : Nat} (d : BitVec (n + 1)) (hn : b.len ≤ n + 1) (k : Nat) :
    (⟨n + 1, d⟩ : Poly).coeff k = ((⟨n, modpStep b n d⟩ : Poly).coeff k ^^
      (d.getLsbD n && (mulp b (monomial (n + 1 - b.len))).coeff k)) := by
  have hlen := one_le_len_of_leading hlead
  rcases Nat.lt_trichotomy k n with hk | rfl | hk
  · have hstep : (⟨n, modpStep b n d⟩ : Poly).coeff k = _ := getLsbD_modpStep b n d k hk
    rw [hstep, coeff_mulp_monomial _ _ _ (by omega), Bool.xor_assoc, Bool.xor_self, Bool.xor_false,
      Poly.coeff]
  · have hpos : k - (k + 1 - b.len) = b.len - 1 := by omega
    rw [Poly.coeff_of_ge (p := ⟨k, _⟩) le_rfl, coeff_mulp_monomial _ _ _ (by omega), hpos, hlead,
      decide_eq_true (by omega), Bool.and_self, Bool.and_true, Bool.false_xor, Poly.coeff]
  · rw [Poly.coeff_of_ge (p := ⟨n + 1, d⟩) hk, Poly.coeff_of_ge (p := ⟨n, _⟩) (Nat.le_of_lt hk),
      Poly.coeff_of_ge (p := mulp _ _) (by simp only [mulp_len, monomial]; omega), Bool.and_false,
      Bool.xor_false]

/-- An iteration keeps the dividend modulo the divisor. -/
theorem dvd_sub_modpStep {n : Nat} (d : BitVec (n + 1)) (hn : b.len ≤ n + 1) :
    toPolynomial b ∣ toPolynomial ⟨n + 1, d⟩ - toPolynomial ⟨n, modpStep b n d⟩ := by
  have hstep := coeff_eq_modpStep_xor hlead d hn
  cases hd : d.getLsbD n with
  | true =>
    simp only [hd, Bool.true_and] at hstep
    rw [(toPolynomial_eq_add_iff _ _ _).mpr hstep, add_sub_cancel_left, toPolynomial_mulp]
    exact dvd_mul_right _ _
  | false =>
    simp only [hd, Bool.false_and, Bool.xor_false] at hstep
    rw [(toPolynomial_eq_iff _ _).mpr hstep, sub_self]
    exact dvd_zero _

theorem dvd_sub_modpLoop (n : Nat) (d : BitVec n) :
    toPolynomial b ∣ toPolynomial ⟨n, d⟩ - toPolynomial (modpLoop b n d) := by
  induction n with
  | zero =>
    rw [modpLoop_stop b 0 d (one_le_len_of_leading hlead), sub_self]
    exact dvd_zero _
  | succ n ih =>
    by_cases hn : b.len ≤ n + 1
    · rw [modpLoop_succ b n d hn, ← sub_add_sub_cancel]
      exact dvd_add (dvd_sub_modpStep hlead d hn) (ih _)
    · rw [modpLoop_stop b (n + 1) d (Nat.lt_of_not_le hn), sub_self]
      exact dvd_zero _

theorem degree_modp_lt (a : Poly) :
    (toPolynomial (modp a b)).degree < ((b.len - 1 : Nat) : WithBot Nat) := by
  refine (degree_toPolynomial_lt _).trans_le (Nat.cast_le.mpr ?_)
  rw [modp_len a b (one_le_len_of_leading hlead)]
  exact Nat.min_le_right _ _

/-- The remainder is the only polynomial of lower degree congruent to the dividend (R103). -/
theorem modByMonic_toPolynomial_eq {f r : Polynomial (ZMod 2)}
    (hr : r.degree < ((b.len - 1 : Nat) : WithBot Nat)) (hdvd : toPolynomial b ∣ f - r) :
    f %ₘ toPolynomial b = r := by
  have hmonic := monic_toPolynomial_of_leading hlead
  rw [← degree_toPolynomial_of_leading hlead] at hr
  rw [Polynomial.modByMonic_eq_of_dvd_sub hmonic hdvd, (Polynomial.modByMonic_eq_self_iff hmonic).mpr hr]

theorem toPolynomial_modp (a : Poly) :
    toPolynomial (modp a b) = toPolynomial a %ₘ toPolynomial b :=
  (modByMonic_toPolynomial_eq hlead (degree_modp_lt hlead a) (dvd_sub_modpLoop hlead a.len a.val)).symm

end Leading

/-- Settles O54: MODP keeps the dividend modulo the divisor and takes its degree below, and so does no other
polynomial. -/
theorem modpIsPolynomialRemainder : Obligations.ModpIsPolynomialRemainder := by
  intro a b _ hlead
  rw [toPolynomial_modp hlead]
  exact ⟨rfl, fun r hr hdvd => modByMonic_toPolynomial_eq hlead hr hdvd⟩

theorem toPolynomial_modp_xor (b : Poly) {n : Nat} (u v : BitVec n) :
    toPolynomial (modp ⟨n, u ^^^ v⟩ b) = toPolynomial (modp ⟨n, u⟩ b) + toPolynomial (modp ⟨n, v⟩ b) :=
  (toPolynomial_eq_add_iff _ _ _).mpr (coeff_modpLoop_xor b n u v)

/-- Settles O55: each iteration is linear, and a polynomial is divisible when its remainder is 0. -/
theorem modpLinearAndDivides : Obligations.ModpLinearAndDivides := by
  intro b _ hlead
  refine ⟨fun n u v => ?linear, fun a => ?divides⟩
  case linear => rw [toNat_eq_xor_iff_toPolynomial, toPolynomial_modp_xor]
  case divides =>
    rw [polyZero_iff, toPolynomial_modp hlead,
      Polynomial.modByMonic_eq_zero_iff_dvd (monic_toPolynomial_of_leading hlead)]

/-! ### MUL and MOD (R105, R106) -/

/-- A failing command reports its code and changes nothing else (R181). -/
theorem exec_of_fail {s : State} {i : Instr} {e : ErrCode} (h : instrRegs s.regs i = s.regs.fail e) :
    ∃ t : Regs s.cfg, exec i s = .next (s.withRegs t) ∧
      statusFields t.status = { statusFields s.regs.status with err := e.code, errs := true } ∧
      SameExcept [.status] s.regs t ∧ t.table = s.regs.table := by
  refine ⟨s.regs.fail e, by rw [exec_eq, h], ?_, sameExcept_withStatus _ _, rfl⟩
  rw [Regs.fail_status, statusFields_setErrs, statusFields_setErr]

/-- A command that ends with a result polynomial changes RES, LENR and ERR only. -/
theorem exec_of_result {s : State} {i : Instr} {p : Poly}
    (h : instrRegs s.regs i = (s.regs.withResult p).done) (hp : p.len ≤ 2 * s.cfg.W - 1) :
    ∃ t : Regs s.cfg, exec i s = .next (s.withRegs t) ∧ t.lenr.toNat = p.len ∧
      (∀ k, t.res.getLsbD k = p.coeff k) ∧
      statusFields t.status = { statusFields s.regs.status with err := 0#3 } ∧
      SameExcept [.status, .res, .lenr] s.regs t ∧ t.table = s.regs.table := by
  refine ⟨(s.regs.withResult p).done, by rw [exec_eq, h], toNat_lenr hp,
    getLsbD_withResult_res s.regs p hp, ?_, ?_, rfl⟩
  · rw [Regs.done_status, statusFields_setErr, Regs.withResult_status]
    rfl
  · exact ((sameExcept_withResult s.regs p).mono (by decide)).done (by decide)

/-- The convolution sees the operands below their lengths only (R24). -/
theorem convolutionBit_operand {v w : Nat} (la : Nat) (a : BitVec v) (lb : Nat) (b : BitVec w) (k : Nat) :
    convolutionBit la (a.setWidth la) lb (b.setWidth lb) k ↔ convolutionBit la a lb b k := by
  rw [convolutionBit, convolutionBit]
  have hsame : ∀ p ∈ Finset.range la ×ˢ Finset.range lb,
      (p.1 + p.2 = k ∧ (a.setWidth la).getLsbD p.1 = true ∧ (b.setWidth lb).getLsbD p.2 = true ↔
        p.1 + p.2 = k ∧ a.getLsbD p.1 = true ∧ b.getLsbD p.2 = true) := by
    intro p hp
    obtain ⟨hi, hj⟩ := Finset.mem_product.mp hp
    simp [Finset.mem_range.mp hi, Finset.mem_range.mp hj]
  rw [Finset.filter_congr hsame]

theorem coeff_mulp_operands (r : Regs c) (k : Nat) :
    (mulp (operandA r) (operandB r)).coeff k = true ↔
      convolutionBit r.lena.toNat r.opa r.lenb.toNat r.opb k :=
  (coeff_mulp_iff_convolutionBit _ _ k).trans (convolutionBit_operand _ _ _ _ k)

/-- Settles O13: MUL's registers are `fail`'s or those of its product. -/
theorem mulMultipliesOrReportsBadLength : Obligations.MulMultipliesOrReportsBadLength := by
  refine ⟨rfl, fun s ha hA hb hB => ?product, fun s hbad => ?badLength⟩
  case product =>
    have hok : ¬ mulBadLength s.regs := by
      simp only [mulBadLength]
      omega
    obtain ⟨t, hexec, hlen, hres, hrest⟩ := exec_of_result (i := .mul) (if_neg hok) (len_mulp_le hok)
    exact ⟨t, hexec, hlen, fun k => by rw [hres, coeff_mulp_operands], hrest⟩
  case badLength => exact exec_of_fail (i := .mul) (e := .badLength) (if_pos hbad)

/-- Settles O14: MOD's registers are `fail`'s, in the order of R186, or those of its remainder. -/
theorem modDividesOrReportsError : Obligations.ModDividesOrReportsError := by
  refine ⟨rfl, fun s hdeg => ?degenerate, fun s hdeg hbad => ?badLength, fun s ha hA hb hB => ?remainder⟩
  case degenerate => exact exec_of_fail (i := .mod) (e := .degenerateDivisor) (if_pos hdeg)
  case badLength =>
    exact exec_of_fail (i := .mod) (e := .badLength) ((if_neg hdeg).trans (if_pos hbad))
  case remainder =>
    have hdeg : ¬ modDegenerate s.regs := Nat.ne_of_gt hb
    have hok : ¬ modBadLength s.regs := by
      simp only [modBadLength]
      omega
    obtain ⟨t, ht⟩ := exec_of_result (i := .mod) ((if_neg hdeg).trans (if_neg hok)) (len_modp_le hdeg hok)
    exact ⟨t, modp (operandA s.regs) (operandB s.regs), rfl, ht⟩

end Sys2Proof.Machine
end

section
/-! The encoder's statements (41_encoder.md): the parts of a codeword, and that its message part determines
it. -/

namespace Sys2Proof.Machine

variable {c : Config}

/-! ### The two parts of the codeword (R120, R121, R123) -/

/-- ENC's divisor is shorter than its dividend, so the remainder has one bit per check bit. -/
theorem modp_shiftedMessage_len (r : Regs c) : (modp (shiftedMessage r) c.gen).len = c.P := by
  rw [shiftedMessage, mulp_monomial]
  exact modp_word_len _

theorem getLsbD_encodeMessage (r : Regs c) (j : Nat) :
    (encodeMessage r).getLsbD j =
      if j < c.P then (modp (shiftedMessage r) c.gen).coeff j else r.msg.getLsbD (j - c.P) := by
  rw [encodeMessage, BitVec.getLsbD_append]
  by_cases hj : j < c.P
  · rw [if_pos hj, if_pos hj, checkBits, BitVec.getLsbD_setWidth, decide_eq_true hj, Bool.true_and,
      Poly.coeff]
  · rw [if_neg hj, if_neg hj]

theorem messagePart_encodeMessage (r : Regs c) : (encodeMessage r).extractLsb' c.P c.K = r.msg :=
  BitVec.extractLsb'_append_eq_left

theorem checkPart_encodeMessage (r : Regs c) : (encodeMessage r).extractLsb' 0 c.P = checkBits r :=
  BitVec.extractLsb'_append_eq_right

/-- Extending the check bits is extending the remainder: cutting it to P bits drops nothing. -/
theorem setWidth_checkBits (r : Regs c) :
    (checkBits r).setWidth c.N = (modp (shiftedMessage r) c.gen).val.setWidth c.N :=
  BitVec.setWidth_setWidth fun ⟨hlt, _⟩ => Nat.ne_of_gt hlt (modp_shiftedMessage_len r)

/-- Settles O16: the codeword's bits by its two parts, and the frame of a write of CW and ERR. -/
theorem encWritesSystematicCodeword : Obligations.EncWritesSystematicCodeword := by
  refine ⟨rfl, fun s => ⟨instrRegs s.regs .enc, exec_eq .enc s, getLsbD_encodeMessage s.regs,
    ?status, (commandStep_instrRegs s.regs .enc).sameExcept, instrRegs_table s.regs .enc (by decide)⟩⟩
  case status => exact statusFields_setErr s.regs.status .none

/-- Settles O17: the message in its place, and the check bits as the remainder zero-extended. -/
theorem codewordIsShiftedXorRemainder : Obligations.CodewordIsShiftedXorRemainder := by
  intro s
  refine ⟨instrRegs s.regs .enc, exec_eq .enc s, ?_⟩
  have hxor := encodeMessage_eq_xor s.regs
  rw [setWidth_checkBits] at hxor
  exact hxor

/-! ### Codewords are a linear code, each determined by its message part (R122 to R124) -/

/-- Settles O18: the check bits cancel the syndrome of the message in its place. -/
theorem encodedCodewordDivisible : Obligations.EncodedCodewordDivisible := fun s =>
  ⟨instrRegs s.regs .enc, exec_eq .enc s, isCodeword_encodeMessage s.regs⟩

theorem IsCodeword.xor {v w : BitVec c.N} (hv : IsCodeword c v) (hw : IsCodeword c w) :
    IsCodeword c (v ^^^ w) := by
  rw [isCodeword_iff] at hv hw ⊢
  rw [synp_xor, hv, hw, BitVec.xor_zero]

/-- With no message a word is its own syndrome, so the only such codeword is 0. -/
theorem IsCodeword.eq_zero_of_messagePart {v : BitVec c.N} (hv : IsCodeword c v)
    (hmsg : v.extractLsb' c.P c.K = 0#c.K) : v = 0#c.N := by
  have hsmall : ∀ j, c.P ≤ j → v.getLsbD j = false := fun j hj => by
    by_cases hN : j < c.N
    · have hbit := congrArg (fun m => m.getLsbD (j - c.P)) hmsg
      have hK : j - c.P < c.K := by
        rw [c.N_eq] at hN
        omega
      simpa [Nat.add_sub_cancel' hj, hK] using hbit
    · exact BitVec.getLsbD_of_ge _ _ (Nat.le_of_not_lt hN)
  apply BitVec.eq_of_getLsbD_eq
  intro j _
  rw [← getLsbD_synp_of_small v hsmall j, (isCodeword_iff v).mp hv]
  simp

theorem IsCodeword.eq_of_messagePart {v w : BitVec c.N} (hv : IsCodeword c v) (hw : IsCodeword c w)
    (hmsg : v.extractLsb' c.P c.K = w.extractLsb' c.P c.K) : v = w := by
  refine BitVec.xor_eq_zero_iff.mp ((hv.xor hw).eq_zero_of_messagePart ?_)
  rw [BitVec.extractLsb'_xor, hmsg, BitVec.xor_self]

theorem IsCodeword.eq_encodeMessage {r : Regs c} {v : BitVec c.N} (hv : IsCodeword c v)
    (hmsg : v.extractLsb' c.P c.K = r.msg) : v = encodeMessage r :=
  hv.eq_of_messagePart (isCodeword_encodeMessage r) (hmsg.trans (messagePart_encodeMessage r).symm)

/-- Settles O19: the slices of `{m, r}`, and two codewords of one message part differ by the codeword 0. In
every state CW after ENC is itself a codeword as the last clause supposes. -/
theorem encodedMessageUnmodified : Obligations.EncodedMessageUnmodified := fun s =>
  ⟨instrRegs s.regs .enc, exec_eq .enc s, messagePart_encodeMessage s.regs,
    checkPart_encodeMessage s.regs, fun _ hv hmsg => hv.eq_encodeMessage hmsg⟩

/-- The sum of two encoded words is a codeword, and its message part is the sum of the messages. -/
theorem encodeMessage_xor {r r₁ r₂ : Regs c} (hmsg : r.msg = r₁.msg ^^^ r₂.msg) :
    encodeMessage r = encodeMessage r₁ ^^^ encodeMessage r₂ := by
  have hsum := (isCodeword_encodeMessage r₁).xor (isCodeword_encodeMessage r₂)
  refine (hsum.eq_encodeMessage ?_).symm
  rw [BitVec.extractLsb'_xor, messagePart_encodeMessage, messagePart_encodeMessage, hmsg]

/-- Settles O20: codewords are the kernel of the linear syndrome map, and a message determines its
codeword. -/
theorem encodeLinear : Obligations.EncodeLinear := by
  refine ⟨fun s m₁ m₂ => ?linear, fun _ _ _ hv hw => hv.xor hw⟩
  case linear =>
    have hexec (m : BitVec s.cfg.K) : exec .enc (s.withRegs { s.regs with msg := m }) =
        .next (s.withRegs (instrRegs { s.regs with msg := m } .enc)) := exec_eq .enc _
    exact ⟨_, _, _, hexec m₁, hexec m₂, hexec (m₁ ^^^ m₂), encodeMessage_xor rfl⟩

end Sys2Proof.Machine
end

section
/-! The syndrome table's statements (42_syndrome_table.md): the syndrome as a residue modulo G and so the powers
of x, what TBLD builds of them, and the text keys that the P-bit keys replace. -/

namespace Sys2Proof.Machine

open Polynomial (X)

variable {c : Config}

/-! ### The syndrome is the residue modulo G (R132, R136) -/

theorem coeff_gen_lead (c : Config) : c.gen.coeff (c.gen.len - 1) = true := c.G_lead

theorem coeff_gen_zero (c : Config) : (toPolynomial c.gen).coeff 0 = 1 :=
  (coeff_toPolynomial_eq_one_iff c.gen 0).mpr c.G_const

theorem monic_gen (c : Config) : (toPolynomial c.gen).Monic :=
  monic_toPolynomial_of_leading (coeff_gen_lead c)

theorem toPolynomial_synp (v : BitVec c.N) :
    toPolynomial ⟨c.P, synp c v⟩ = toPolynomial ⟨c.N, v⟩ %ₘ toPolynomial c.gen := by
  rw [← toPolynomial_modp (coeff_gen_lead c), toPolynomial_eq_iff]
  exact getLsbD_synp v

theorem toPolynomial_power {j : Nat} (hj : j < c.N) : toPolynomial ⟨c.N, 1#c.N <<< j⟩ = X ^ j := by
  ext k
  have hbit : (⟨c.N, 1#c.N <<< j⟩ : Poly).coeff k = decide (k = j) := by
    rw [Poly.coeff]
    have h := getLsbD_positionBit (c := c) (c.N - 1 - j) k (by omega)
    rwa [positionBit, show c.N - 1 - (c.N - 1 - j) = j by omega] at h
  rw [coeff_toPolynomial, hbit, Polynomial.coeff_X_pow]
  simp only [decide_eq_true_eq]

theorem toPolynomial_inj {n : Nat} {u v : BitVec n} :
    toPolynomial ⟨n, u⟩ = toPolynomial ⟨n, v⟩ ↔ u = v :=
  ⟨fun h => by simpa using eq_of_toPolynomial (p := ⟨n, u⟩) (q := ⟨n, v⟩) rfl h, fun h => h ▸ rfl⟩

theorem toPolynomial_zero (n : Nat) : toPolynomial ⟨n, 0#n⟩ = 0 :=
  (polyZero_iff _).mp rfl

/-- Two words have one syndrome exactly when they are congruent modulo G. -/
theorem synp_eq_synp_iff (v w : BitVec c.N) : synp c v = synp c w ↔
    AdjoinRoot.mk (toPolynomial c.gen) (toPolynomial ⟨c.N, v⟩) =
      AdjoinRoot.mk (toPolynomial c.gen) (toPolynomial ⟨c.N, w⟩) := by
  rw [← (AdjoinRoot.mk_leftInverse (monic_gen c)).injective.eq_iff, AdjoinRoot.modByMonicHom_mk,
    AdjoinRoot.modByMonicHom_mk, ← toPolynomial_synp, ← toPolynomial_synp, toPolynomial_inj]

/-- Settles O22: the codeword's own syndrome is 0, and MODP is the polynomial remainder. -/
theorem singleFlipSyndrome : Obligations.SingleFlipSyndrome := by
  intro c v i hv hi
  have hflip : synp c (flipPosition c v i) = powerOfX c (c.N - 1 - i) := synp_flipPosition hv i
  refine ⟨hflip, ?_⟩
  rw [hflip, powerOfX, toPolynomial_synp, toPolynomial_power (by omega)]

/-! ### Powers of x modulo G: x is a unit, since G has a constant term (R139) -/

theorem powerOfX_eq_powerOfX_iff {j j' : Nat} (hj : j < c.N) (hj' : j' < c.N) :
    powerOfX c j = powerOfX c j' ↔
      AdjoinRoot.root (toPolynomial c.gen) ^ j = AdjoinRoot.root (toPolynomial c.gen) ^ j' := by
  rw [powerOfX, powerOfX, synp_eq_synp_iff, toPolynomial_power hj, toPolynomial_power hj', map_pow, map_pow,
    AdjoinRoot.mk_X]

theorem isUnit_root (c : Config) : IsUnit (AdjoinRoot.root (toPolynomial c.gen)) := by
  have hX : ¬ X ∣ toPolynomial c.gen := by
    rw [Polynomial.X_dvd_iff, coeff_gen_zero]
    exact one_ne_zero
  have hcop := (Polynomial.irreducible_X.coprime_iff_not_dvd.mpr hX).map
    (AdjoinRoot.mk (toPolynomial c.gen))
  rwa [AdjoinRoot.mk_self, AdjoinRoot.mk_X, isCoprime_zero_right] at hcop

theorem powerOfX_zero (c : Config) : powerOfX c 0 = 1#c.P := by
  have hone : 1#c.N <<< 0 = (1#c.P).setWidth c.N := by
    apply BitVec.eq_of_toNat_eq
    have hP : 1 < 2 ^ c.P := Nat.one_lt_two_pow (Nat.one_le_iff_ne_zero.mp c.one_le_P)
    simp [Nat.mod_eq_of_lt hP]
  rw [powerOfX, hone, synp_setWidth]

theorem powerOfX_eq_one_iff {e : Nat} (he : e < c.N) :
    powerOfX c e = 1#c.P ↔ AdjoinRoot.root (toPolynomial c.gen) ^ e = 1 := by
  rw [← powerOfX_zero, powerOfX_eq_powerOfX_iff he c.N_pos, pow_zero]

/-- Equal powers differ by a power that is 1. -/
theorem powerOfX_eq_powerOfX_add_iff {j d : Nat} (h : j + d < c.N) :
    powerOfX c j = powerOfX c (j + d) ↔ powerOfX c d = 1#c.P := by
  rw [powerOfX_eq_powerOfX_iff (by omega) h, powerOfX_eq_one_iff (by omega), pow_add, eq_comm,
    ((isUnit_root c).pow j).mul_eq_left]

/-- A power of a unit is not 0, and G is not constant. -/
theorem powerOfX_ne_zero {j : Nat} (hj : j < c.N) : powerOfX c j ≠ 0#c.P := by
  have hdeg : (toPolynomial c.gen).degree ≠ 0 := by
    rw [degree_toPolynomial_of_leading (coeff_gen_lead c)]
    exact Nat.cast_ne_zero.mpr (Nat.one_le_iff_ne_zero.mp c.one_le_P)
  have hnontrivial := AdjoinRoot.nontrivial (toPolynomial c.gen) hdeg
  rw [← (isCodeword_iff _).mp (isCodeword_zero c), powerOfX, Ne, synp_eq_synp_iff,
    toPolynomial_power hj, toPolynomial_zero, map_pow, AdjoinRoot.mk_X, map_zero]
  exact ((isUnit_root c).pow j).ne_zero

/-- Positions and exponents count in opposite directions (R17, R136). -/
theorem positionSyndrome_eq_powerOfX (c : Config) (i : Nat) :
    positionSyndrome c i = powerOfX c (c.N - 1 - i) := rfl

theorem positionSyndrome_ne_zero {i : Nat} (hi : i < c.N) : positionSyndrome c i ≠ 0#c.P :=
  powerOfX_ne_zero (by omega)

/-- The three readings of a collision: two positions, two exponents, one power that is 1. -/
theorem collision_tfae (c : Config) : List.TFAE [Collision c,
    ∃ j j', j < c.N ∧ j' < c.N ∧ j ≠ j' ∧ powerOfX c j = powerOfX c j',
    ∃ e, 0 < e ∧ e < c.N ∧ powerOfX c e = 1#c.P] := by
  tfae_have 1 → 2
  | ⟨i, j, hij, hj, heq⟩ => ⟨c.N - 1 - i, c.N - 1 - j, by omega, by omega, by omega, heq⟩
  tfae_have 2 → 3 := by
    rintro ⟨j, j', hj, hj', hne, heq⟩
    wlog hlt : j < j' generalizing j j'
    · exact this j' j hj' hj hne.symm heq.symm (by omega)
    obtain ⟨d, rfl⟩ := Nat.exists_eq_add_of_le hlt.le
    exact ⟨d, by omega, by omega, (powerOfX_eq_powerOfX_add_iff hj').mp heq⟩
  tfae_have 3 → 1 := by
    rintro ⟨e, hpos, hlt, hone⟩
    refine ⟨c.N - 1 - e, c.N - 1, by omega, by omega, ?_⟩
    have he : c.N - 1 - (c.N - 1 - e) = e := by omega
    rw [positionSyndrome_eq_powerOfX, positionSyndrome_eq_powerOfX, he, hone, Nat.sub_self, powerOfX_zero]
  tfae_finish

/-! ### TBLD (R135, R137 to R139) -/

/-- Settles O21: what `buildTable_prefix` says of all N positions, with the frame of a write of the table and
STATUS. -/
theorem tbldKeepsLastPositionOfEachSyndrome : Obligations.TbldKeepsLastPositionOfEachSyndrome := by
  refine ⟨rfl, fun s => ?_⟩
  obtain ⟨hread, hcoll⟩ := buildTable_prefix s.regs.cw s.cfg.N
  refine ⟨instrRegs s.regs .tbld, (buildTable s.cfg s.regs.cw).2, exec_eq .tbld s, fun key => ?entry, hcoll,
    ?status, (commandStep_instrRegs s.regs .tbld).sameExcept⟩
  case entry =>
    refine (hread key).imp ?_ id
    rintro ⟨i, hi, hkey, hlast, hentry⟩
    refine ⟨i, hi, hkey, hlast, hentry, ?_⟩
    exact (congrArg (fun e => e.pos.toNat) hentry).trans (toNat_position hi)
  case status => simp [instrRegs, ErrCode.code]

theorem FixedEntry.valid_iff {key : BitVec c.P} {e : Entry c} (h : FixedEntry c key e) :
    e.valid = true ↔ ∃ i, i < c.N ∧ positionSyndrome c i = key := by
  cases hvalid : e.valid with
  | true =>
    obtain ⟨hpos, hkey, -⟩ := h.1 hvalid
    exact iff_of_true rfl ⟨e.pos.toNat, hpos, hkey⟩
  | false =>
    obtain ⟨-, hnone⟩ := h.2 hvalid
    exact iff_of_false Bool.false_ne_true fun ⟨i, hi, hkey⟩ => hnone i hi hkey

/-- The largest position with a syndrome is one position. -/
theorem FixedEntry.unique {key : BitVec c.P} {e e' : Entry c} (h : FixedEntry c key e)
    (h' : FixedEntry c key e') : e = e' := by
  have hsame : e.valid = e'.valid := Bool.eq_iff_iff.mpr (h.valid_iff.trans h'.valid_iff.symm)
  have hpos : e.pos = e'.pos := by
    cases hvalid : e.valid with
    | true =>
      obtain ⟨hlt, hkey, hlast⟩ := h.1 hvalid
      obtain ⟨hlt', hkey', hlast'⟩ := h'.1 (hsame ▸ hvalid)
      rcases Nat.lt_trichotomy e.pos.toNat e'.pos.toNat with hl | heq | hl
      · exact absurd hkey' (hlast _ hl hlt')
      · exact BitVec.eq_of_toNat_eq heq
      · exact absurd hkey (hlast' _ hl hlt)
    | false => rw [(h.2 hvalid).1, (h'.2 (hsame ▸ hvalid)).1]
  exact congrArg₂ Entry.mk hsame hpos

theorem FixedTable.unique {t u : Vector (Entry c) (2 ^ c.P)} (ht : FixedTable c t) (hu : FixedTable c u) :
    t = u :=
  table_ext fun key => (ht key).unique (hu key)

/-- Settles O23: the built table is fixed, and a fixed table is determined by its reads. -/
theorem tbldBuildsFixedTable : Obligations.TbldBuildsFixedTable := fun s hcw =>
  ⟨instrRegs s.regs .tbld, exec_eq .tbld s, fixedTable_buildTable hcw,
    fun _ hu => hu.unique (fixedTable_buildTable hcw)⟩

theorem FixedTable.zero_invalid {t : Vector (Entry c) (2 ^ c.P)} (ht : FixedTable c t) :
    (tableRead t 0#c.P).valid = false := by
  refine Bool.eq_false_iff.mpr fun hvalid => ?_
  obtain ⟨hpos, hkey, -⟩ := (ht 0#c.P).1 hvalid
  exact positionSyndrome_ne_zero hpos hkey

theorem TableInv.zero_invalid {r : Regs c} (hr : TableInv r) : (tableRead r.table 0#c.P).valid = false := by
  rcases hr with ⟨-, hinvalid⟩ | ⟨-, hfixed⟩
  · rw [hinvalid]
    rfl
  · exact hfixed.zero_invalid

/-- DEC on a syndrome that is no valid key reports UNCORRECTABLE. -/
theorem dstat_instrRegs_dec_of_miss {r : Regs c} (h : (tableRead r.table (synp c r.rx)).valid = false) :
    (statusFields (instrRegs r .dec).status).dstat = 2#2 := by
  simp [instrRegs, correct_of_miss r h, DecodeStatus.code]

/-- Settles O24: no power of x is 0 modulo G, so no position has the syndrome 0. -/
theorem zeroKeyNeverValid : Obligations.ZeroKeyNeverValid := by
  refine ⟨fun s hcw => ?built, fun s hs => hs.zero_invalid, fun s hs hsyn => ?dec⟩
  case built =>
    exact ⟨instrRegs s.regs .tbld, exec_eq .tbld s, (fixedTable_buildTable hcw).zero_invalid⟩
  case dec =>
    refine ⟨instrRegs s.regs .dec, exec_eq .dec s, dstat_instrRegs_dec_of_miss ?_⟩
    rw [hsyn]
    exact hs.zero_invalid

theorem coll_instrRegs_tbld {r : Regs c} (hcw : IsCodeword c r.cw) :
    (statusFields (instrRegs r .tbld).status).coll = true ↔ Collision c := by
  rw [← buildTable_collision hcw]
  simp [instrRegs]

/-- Without a collision a position is the largest with its syndrome. -/
theorem FixedTable.read_positionSyndrome {t : Vector (Entry c) (2 ^ c.P)} (ht : FixedTable c t)
    (hnone : ¬ Collision c) {i : Nat} (hi : i < c.N) :
    tableRead t (positionSyndrome c i) = ⟨true, BitVec.ofNat _ i⟩ := by
  refine (ht _).unique ⟨fun _ => ?_, fun h => absurd h (by simp)⟩
  rw [toNat_position hi]
  exact ⟨hi, rfl, fun j hij hj heq => hnone ⟨i, j, hij, hj, heq.symm⟩⟩

/-- Settles O25: COLL is a collision of positions, in each of its readings. -/
theorem collReportsCollision : Obligations.CollReportsCollision := by
  intro s hcw
  have hcoll := coll_instrRegs_tbld hcw
  refine ⟨instrRegs s.regs .tbld, exec_eq .tbld s, hcoll.trans ((collision_tfae s.cfg).out 0 1),
    hcoll.trans ((collision_tfae s.cfg).out 0 2), fun hzero i hi => ?own⟩
  case own =>
    refine (fixedTable_buildTable hcw).read_positionSyndrome ?_ hi
    rw [← hcoll, hzero]
    exact Bool.false_ne_true

/-! ### The source's generator (R139, V8) -/

/-- A collision needs more positions than x has powers. -/
theorem collision_iff_orderOf_lt (hfin : 0 < orderOf (AdjoinRoot.root (toPolynomial c.gen))) :
    Collision c ↔ orderOf (AdjoinRoot.root (toPolynomial c.gen)) < c.N := by
  refine ((collision_tfae c).out 0 2).trans ?_
  constructor
  · rintro ⟨e, hpos, hlt, hone⟩
    rw [powerOfX_eq_one_iff hlt, ← orderOf_dvd_iff_pow_eq_one] at hone
    exact (Nat.le_of_dvd hpos hone).trans_lt hlt
  · exact fun hlt => ⟨_, hfin, hlt, (powerOfX_eq_one_iff hlt).mpr (pow_orderOf_eq_one _)⟩

/-- The source's generator with the shortest message that meets a collision, N = 64. -/
abbrev collidingSource : Config := ⟨6, 0x43#7, 58, 1, by decide, by decide, by decide, by decide, by decide⟩

/-- The order of x modulo x^6 + x + 1: x^63 is 1, and x^21 and x^9 are not. MODP takes 58 iterations on each of
these 64-bit words, deeper than the elaborator follows, so the kernel evaluates them. -/
theorem orderOf_root_source : orderOf (AdjoinRoot.root (toPolynomial collidingSource.gen)) = 63 := by
  have hpower (e : Nat) (he : e < 64) : powerOfX collidingSource e = 1#6 ↔ _ := powerOfX_eq_one_iff he
  refine orderOf_eq_of_pow_and_pow_div_prime (by decide) ((hpower 63 (by decide)).mp (by decide +kernel))
    fun p hp hdvd => ?_
  rcases hp.dvd_mul.mp (show p ∣ 3 ^ 2 * 7 from hdvd) with h3 | h7
  · rw [(Nat.prime_dvd_prime_iff_eq hp Nat.prime_three).mp (hp.dvd_of_dvd_pow h3)]
    exact (hpower 21 (by decide)).not.mp (by decide +kernel)
  · rw [(Nat.prime_dvd_prime_iff_eq hp Nat.prime_seven).mp h7]
    exact (hpower 9 (by decide)).not.mp (by decide +kernel)

/-- Settles O26: whatever K and W are, the generator is the one x has order 63 modulo, and N is K + 6. -/
theorem sourceGeneratorCollidesBeyond63 : Obligations.SourceGeneratorCollidesBeyond63 := by
  intro K W hK hW
  have horder : orderOf (AdjoinRoot.root (toPolynomial
      (⟨6, 0x43#7, K, W, by decide, by decide, by decide, hK, hW⟩ : Config).gen)) = 63 :=
    orderOf_root_source
  rw [collision_iff_orderOf_lt (by omega), horder]
  change 63 < K + 6 ↔ 57 < K
  omega

/-! ### The text keys (R130, R133) -/

theorem mem_renderDegrees {p : Poly} {j : Nat} : j ∈ renderDegrees p ↔ p.coeff j = true := by
  simp only [renderDegrees, List.mem_filter, List.mem_reverse, List.mem_range, and_iff_right_iff_imp]
  exact Poly.lt_len_of_coeff

/-- The words between Render's separators: the terms, or the zero polynomial's "0". -/
def renderWords (p : Poly) : List String :=
  if renderDegrees p = [] then ["0"] else (renderDegrees p).map renderTerm

theorem render_eq_intercalate (p : Poly) : render p = " + ".intercalate (renderWords p) := by
  unfold render renderWords
  split
  · rfl
  · rfl

theorem renderWords_ne_nil (p : Poly) : renderWords p ≠ [] := by
  unfold renderWords
  split
  case isTrue => exact List.cons_ne_nil _ _
  case isFalse h => exact mt List.map_eq_nil_iff.mp h

theorem toList_renderTerm_add_two (d : Nat) :
    (renderTerm (d + 2)).toList = 'x' :: '^' :: (toString (d + 2)).toList :=
  String.toList_append

theorem isDigit_of_mem_toString {d : Nat} {a : Char} (h : a ∈ (toString d).toList) : a.isDigit = true := by
  rw [Nat.toString_eq_ofList_toDigits, String.toList_ofList] at h
  exact Nat.isDigit_of_mem_toDigits (by decide) (by decide) h

/-- No term holds a character of Render's separator. -/
theorem ne_separator_of_mem_renderTerm {d : Nat} {a : Char} (h : a ∈ (renderTerm d).toList) :
    a ≠ ' ' ∧ a ≠ '+' := by
  match d with
  | 0 | 1 => simp_all [renderTerm]
  | d + 2 =>
    simp only [toList_renderTerm_add_two, List.mem_cons] at h
    rcases h with rfl | rfl | hd
    · decide
    · decide
    · have hdigit := isDigit_of_mem_toString hd
      constructor <;> (rintro rfl; exact absurd hdigit (by decide))

theorem renderTerm_injective : Function.Injective renderTerm := by
  intro d d' h
  have hchars := congrArg String.toList h
  match d, d' with
  | 0, 0 | 1, 1 => rfl
  | 0, 1 | 1, 0 => exact absurd h (by decide)
  | 0, d' + 2 | 1, d' + 2 => simp [renderTerm] at hchars
  | d + 2, 0 | d + 2, 1 => simp [renderTerm] at hchars
  | d + 2, d' + 2 =>
    simp only [toList_renderTerm_add_two, List.cons.injEq, true_and] at hchars
    exact Nat.repr_injective (String.toList_injective hchars)

theorem renderTerm_ne_zero (d : Nat) : renderTerm d ≠ "0" := by
  intro h
  match d with
  | 0 | 1 => exact absurd h (by decide)
  | d + 2 => simpa [toList_renderTerm_add_two] using congrArg String.toList h

/-- The terms among the words are those of the set bits: the word "0" is none. -/
theorem renderTerm_mem_renderWords {p : Poly} {d : Nat} :
    renderTerm d ∈ renderWords p ↔ p.coeff d = true := by
  rw [← mem_renderDegrees]
  unfold renderWords
  split
  case isTrue h => simp [h, renderTerm_ne_zero]
  case isFalse => exact List.mem_map_of_injective renderTerm_injective

theorem ne_separator_of_mem_renderWords {p : Poly} {w : String} (hw : w ∈ renderWords p) {a : Char}
    (ha : a ∈ w.toList) : a ≠ ' ' ∧ a ≠ '+' := by
  unfold renderWords at hw
  split at hw
  · obtain rfl := List.mem_singleton.mp hw
    simp_all
  · obtain ⟨d, -, rfl⟩ := List.mem_map.mp hw
    exact ne_separator_of_mem_renderTerm ha

theorem filter_intercalate {α : Type*} (f : α → Bool) (sep : List α) (ls : List (List α)) :
    (sep.intercalate ls).filter f = (sep.filter f).intercalate (ls.map (List.filter f)) := by
  match ls with
  | [] => rfl
  | [l] => simp
  | l :: l' :: ls => simp [List.intercalate_cons_cons, filter_intercalate f sep (l' :: ls)]

/-- Taking the separators' spaces out and cutting at their plus signs gives the words back. -/
theorem splitOn_filter_intercalate {ws : List (List Char)} (hne : ws ≠ [])
    (hsep : ∀ w ∈ ws, ∀ a ∈ w, a ≠ ' ' ∧ a ≠ '+') :
    ((" + ".toList.intercalate ws).filter (· != ' ')).splitOn '+' = ws := by
  have hkeep : ws.map (List.filter (· != ' ')) = ws := by
    refine (List.map_congr_left fun w hw => ?_).trans (List.map_id ws)
    exact List.filter_eq_self.mpr fun a ha => bne_iff_ne.mpr (hsep w hw a ha).1
  rw [filter_intercalate, hkeep]
  exact List.splitOn_intercalate '+' (fun w hw hplus => (hsep w hw '+' hplus).2 rfl) hne

theorem renderWords_eq_splitOn (p : Poly) :
    (renderWords p).map String.toList = ((render p).toList.filter (· != ' ')).splitOn '+' := by
  rw [render_eq_intercalate, String.toList_intercalate, splitOn_filter_intercalate]
  · exact mt List.map_eq_nil_iff.mp (renderWords_ne_nil p)
  · rintro w hw a ha
    obtain ⟨word, hword, rfl⟩ := List.mem_map.mp hw
    exact ne_separator_of_mem_renderWords hword ha

theorem eq_of_render {p q : Poly} (hlen : p.len = q.len) (h : render p = render q) : p = q := by
  have hwords : renderWords p = renderWords q := by
    refine List.map_injective_iff.mpr (fun _ _ => String.toList_injective) ?_
    rw [renderWords_eq_splitOn, renderWords_eq_splitOn, h]
  refine Poly.eq_of_coeff hlen fun d => ?_
  rw [Bool.eq_iff_iff, ← renderTerm_mem_renderWords, hwords, renderTerm_mem_renderWords]

/-- Settles O58: the words of the text name the degrees of the set bits. -/
theorem renderIsInjectiveOnOneLength : Obligations.RenderIsInjectiveOnOneLength := by
  refine ⟨fun c => modp_word_len, fun n u v => ⟨fun h => ?_, fun h => by rw [h]⟩⟩
  simpa using eq_of_render (p := ⟨n, u⟩) (q := ⟨n, v⟩) rfl h

end Sys2Proof.Machine
end

section
/-! The corrector's statements (43_corrector.md): what DEC leaves on a hit and on a miss, and so what it does with
a codeword under no, one or many flipped positions. -/

namespace Sys2Proof.Machine

variable {c : Config}

/-! ### DEC on a hit and on a miss (R150) -/

theorem syn_instrRegs_dec (r : Regs c) : (instrRegs r .dec).syn = synp c r.rx := by
  cases h : (tableRead r.table (synp c r.rx)).valid with
  | true => rw [instrRegs, correct_of_hit r h, Regs.done_syn, Regs.withDecode_syn]
  | false => rw [instrRegs, correct_of_miss r h, Regs.done_syn, Regs.withDecode_syn]

section Hit

variable {r : Regs c} (h : (tableRead r.table (synp c r.rx)).valid = true)

include h

theorem statusFields_instrRegs_dec_of_hit : statusFields (instrRegs r .dec).status =
    { statusFields r.status with err := 0#3, dstat := 1#2 } := by
  simp [instrRegs, correct_of_hit r h, ErrCode.code, DecodeStatus.code]

theorem out_instrRegs_dec_of_hit : (instrRegs r .dec).out =
    flipPosition c r.rx (tableRead r.table (synp c r.rx)).pos.toNat := by
  rw [instrRegs, correct_of_hit r h, Regs.done_out, Regs.withDecode_out]

theorem idx_instrRegs_dec_of_hit :
    (instrRegs r .dec).idx = (tableRead r.table (synp c r.rx)).pos := by
  rw [instrRegs, correct_of_hit r h, Regs.done_idx, Regs.withDecode_idx]

end Hit

section Miss

variable {r : Regs c} (h : (tableRead r.table (synp c r.rx)).valid = false)

include h

theorem statusFields_instrRegs_dec_of_miss : statusFields (instrRegs r .dec).status =
    { statusFields r.status with err := 0#3, dstat := 2#2 } := by
  simp [instrRegs, correct_of_miss r h, ErrCode.code, DecodeStatus.code]

theorem out_instrRegs_dec_of_miss : (instrRegs r .dec).out = r.rx := by
  rw [instrRegs, correct_of_miss r h, Regs.done_out, Regs.withDecode_out]

theorem idx_instrRegs_dec_of_miss : (instrRegs r .dec).idx = 0#_ := by
  rw [instrRegs, correct_of_miss r h, Regs.done_idx, Regs.withDecode_idx]

end Miss

/-- Settles O27: DEC's syndrome is SYNP of RX, and the entry at it decides between the hit and the miss. -/
theorem decCorrectsOrReportsUncorrectable : Obligations.DecCorrectsOrReportsUncorrectable := by
  refine ⟨rfl, fun s => ⟨instrRegs s.regs .dec, exec_eq .dec s, syn_instrRegs_dec s.regs, ?hit, ?miss,
    (commandStep_instrRegs s.regs .dec).sameExcept, instrRegs_table s.regs .dec (by decide)⟩⟩
  case hit =>
    rw [syn_instrRegs_dec]
    exact fun h => ⟨out_instrRegs_dec_of_hit h, idx_instrRegs_dec_of_hit h,
      statusFields_instrRegs_dec_of_hit h⟩
  case miss =>
    rw [syn_instrRegs_dec]
    exact fun h => ⟨out_instrRegs_dec_of_miss h, idx_instrRegs_dec_of_miss h,
      statusFields_instrRegs_dec_of_miss h⟩

/-! ### The table that DEC reads (R41, R137) -/

theorem TableInv.fixed {r : Regs c} (hr : TableInv r) (hb : (statusFields r.status).tblv = true) :
    FixedTable c r.table := by
  rcases hr with ⟨hunbuilt, -⟩ | ⟨-, hfixed⟩
  · rw [hb] at hunbuilt
    contradiction
  · exact hfixed

theorem TableInv.read_unbuilt {r : Regs c} (hr : TableInv r) (hb : (statusFields r.status).tblv = false)
    (key : BitVec c.P) : tableRead r.table key = Entry.invalid c := by
  rcases hr with ⟨-, hinvalid⟩ | ⟨hbuilt, -⟩
  · exact hinvalid key
  · rw [hb] at hbuilt
    contradiction

/-- A built table holds the last of the positions that have a syndrome (R137). -/
theorem FixedTable.read_of_last {t : Vector (Entry c) (2 ^ c.P)} (ht : FixedTable c t) {key : BitVec c.P}
    {m : Nat} (hm : m < c.N) (hkey : positionSyndrome c m = key)
    (hlast : ∀ j, m < j → j < c.N → positionSyndrome c j ≠ key) :
    tableRead t key = ⟨true, BitVec.ofNat _ m⟩ := by
  refine (ht key).unique ⟨fun _ => ?_, fun h => absurd h (by simp)⟩
  rw [toNat_position hm]
  exact ⟨hm, hkey, hlast⟩

/-! ### One flipped position (R152) -/

/-- DEC on a codeword with position `i` flipped flips the position that the table holds for `i`'s syndrome. -/
theorem instrRegs_dec_of_flipped {r : Regs c} {v : BitVec c.N} {i m : Nat} (hv : IsCodeword c v)
    (hrx : r.rx = flipPosition c v i) (hm : m < c.N)
    (hread : tableRead r.table (positionSyndrome c i) = ⟨true, BitVec.ofNat _ m⟩) :
    (statusFields (instrRegs r .dec).status).dstat = 1#2 ∧ (instrRegs r .dec).idx.toNat = m ∧
      (instrRegs r .dec).syn = powerOfX c (c.N - 1 - i) ∧
      (instrRegs r .dec).out = flipPosition c (flipPosition c v i) m := by
  have hsyn : synp c r.rx = positionSyndrome c i := by rw [hrx, synp_flipPosition hv]
  rw [← hsyn] at hread
  have hvalid : (tableRead r.table (synp c r.rx)).valid = true := by rw [hread]
  have hpos : (tableRead r.table (synp c r.rx)).pos.toNat = m := by rw [hread, toNat_position hm]
  refine ⟨?dstat, ?idx, ?syn, ?out⟩
  case dstat => rw [statusFields_instrRegs_dec_of_hit hvalid]
  case idx => rw [idx_instrRegs_dec_of_hit hvalid, hpos]
  case syn => rw [syn_instrRegs_dec, hsyn, positionSyndrome_eq_powerOfX]
  case out => rw [out_instrRegs_dec_of_hit hvalid, hpos, hrx]

/-- Settles O28: the table holds the last position with the flipped one's syndrome, which without a collision
is the flipped one; flipping that again restores the codeword. -/
theorem singleErrorRoundTrip : Obligations.SingleErrorRoundTrip := by
  refine ⟨fun s v i hs hc hb hcoll hv hi hrx => ?noCollision,
    fun s v i m hs hb hv _ hm hsame hlast hrx => ?collision⟩
  case noCollision =>
    have hnone : ¬ Collision s.cfg := by simp [← hc hb, hcoll]
    obtain ⟨hdstat, hidx, hsyn, hout⟩ :=
      instrRegs_dec_of_flipped hv hrx hi ((hs.fixed hb).read_positionSyndrome hnone hi)
    exact ⟨instrRegs s.regs .dec, exec_eq .dec s, hdstat, hidx,
      hout.trans (flipPosition_flipPosition v i), hsyn⟩
  case collision =>
    obtain ⟨hdstat, hidx, hsyn, hout⟩ :=
      instrRegs_dec_of_flipped hv hrx hm ((hs.fixed hb).read_of_last hm hsame hlast)
    refine ⟨instrRegs s.regs .dec, exec_eq .dec s, hdstat, hidx, hsyn, ?_, fun _ => hout⟩
    rintro rfl
    exact hout.trans (flipPosition_flipPosition v m)

/-! ### No error, any error pattern, and an unbuilt table (R153 to R155) -/

theorem TableInv.miss_of_codeword {r : Regs c} (hr : TableInv r) (hrx : IsCodeword c r.rx) :
    (tableRead r.table (synp c r.rx)).valid = false := by
  rw [(isCodeword_iff r.rx).mp hrx]
  exact hr.zero_invalid

/-- Settles O29: a codeword's syndrome is the zero key, which is never valid. -/
theorem noErrorWordMisses : Obligations.NoErrorWordMisses := by
  intro s hs hrx
  have hmiss := hs.miss_of_codeword hrx
  refine ⟨instrRegs s.regs .dec, exec_eq .dec s, ?syn, dstat_instrRegs_dec_of_miss hmiss, ?err,
    out_instrRegs_dec_of_miss hmiss, idx_instrRegs_dec_of_miss hmiss⟩
  case err => rw [statusFields_instrRegs_dec_of_miss hmiss]
  case syn => rw [syn_instrRegs_dec, (isCodeword_iff s.regs.rx).mp hrx]

/-- Settles O30: a codeword adds nothing to the syndrome, so the entry at the error pattern's own syndrome
decides; a codeword as the pattern makes RX a codeword. -/
theorem multiBitErrorOutcomes : Obligations.MultiBitErrorOutcomes := by
  intro s v e hs hv hrx
  have hsyn : synp s.cfg s.regs.rx = synp s.cfg e := by
    rw [hrx, synp_xor, (isCodeword_iff v).mp hv, BitVec.zero_xor]
  refine ⟨instrRegs s.regs .dec, exec_eq .dec s, (syn_instrRegs_dec s.regs).trans hsyn, ?miss, ?hit,
    fun he => ?undetected⟩
  case miss =>
    rw [← hsyn]
    exact fun h => ⟨dstat_instrRegs_dec_of_miss h, out_instrRegs_dec_of_miss h⟩
  case hit =>
    rw [← hsyn, ← hrx]
    exact fun h => ⟨by rw [statusFields_instrRegs_dec_of_hit h], out_instrRegs_dec_of_hit h⟩
  case undetected =>
    have hcode : IsCodeword s.cfg s.regs.rx := hrx ▸ hv.xor he
    have hmiss := hs.miss_of_codeword hcode
    refine ⟨?_, dstat_instrRegs_dec_of_miss hmiss, ?_⟩
    · rw [syn_instrRegs_dec, (isCodeword_iff s.regs.rx).mp hcode]
    · rwa [out_instrRegs_dec_of_miss hmiss]

/-- Settles O31: an unbuilt table has no valid key. -/
theorem unbuiltTableAlwaysMisses : Obligations.UnbuiltTableAlwaysMisses := by
  intro s hs hb
  have hmiss : (tableRead s.regs.table (synp s.cfg s.regs.rx)).valid = false := by
    rw [hs.read_unbuilt hb, Entry.invalid]
  exact ⟨instrRegs s.regs .dec, exec_eq .dec s, dstat_instrRegs_dec_of_miss hmiss,
    out_instrRegs_dec_of_miss hmiss, idx_instrRegs_dec_of_miss hmiss, syn_instrRegs_dec s.regs⟩

end Sys2Proof.Machine
end

section
/-! The control commands' statements (44_control.md): what NOP and a reserved word leave, and that NOP, ENC,
TBLD and DEC change nothing when run a second time. -/

namespace Sys2Proof.Machine

variable {c : Config}

/-! ### NOP and the reserved words (R170, R171) -/

/-- Settles O12: NOP leaves `done`'s registers, which differ in ERR only. -/
theorem nopOnlyClearsErr : Obligations.NopOnlyClearsErr := fun s =>
  ⟨instrRegs s.regs .nop, exec_eq .nop s, statusFields_setErr s.regs.status .none,
    (commandStep_instrRegs s.regs .nop).sameExcept, instrRegs_table s.regs .nop (by decide)⟩

theorem statusFields_fail (r : Regs c) (e : ErrCode) :
    statusFields (r.fail e).status = { statusFields r.status with err := e.code, errs := true } := by
  rw [Regs.fail_status, statusFields_setErrs, statusFields_setErr]

/-- The reserved values by the two fields of R70: RSV not 0, or OP not assigned. -/
theorem decode_ofNat_eq_none_iff_fields {v : Nat} :
    decode (BitVec.ofNat 8 v) = none ↔ v / 16 % 16 ≠ 0 ∨ 6 ≤ v % 16 := by
  rw [decode_ofNat_eq_none_iff]
  omega

/-- Settles O4: a reserved word decodes to no command and leaves `fail`'s registers, which differ in ERR and
ERRS only. -/
theorem reservedWordFailsIllegalCmd : Obligations.ReservedWordFailsIllegalCmd := fun s _ _ hp hv =>
  ⟨s.regs.fail .illegalCmd, step_write_reserved hp (decode_ofNat_eq_none_iff_fields.mpr hv),
    statusFields_fail s.regs .illegalCmd, sameExcept_withStatus s.regs _, rfl⟩

/-! ### Writing a STATUS field with the value it has -/

/-- STATUS is determined by its fields (R34). -/
theorem statusFields_injective : Function.Injective statusFields := by
  intro st st' h
  apply BitVec.eq_of_toNat_eq
  rw [statusWordIsItsFields st, h, ← statusWordIsItsFields st']

theorem setErr_of_err {st : BitVec 16} {e : ErrCode} (h : (statusFields st).err = e.code) :
    setErr st e = st :=
  statusFields_injective (by rw [statusFields_setErr, ← h])

theorem setDstat_of_dstat {st : BitVec 16} {d : DecodeStatus} (h : (statusFields st).dstat = d.code) :
    setDstat st d = st :=
  statusFields_injective (by rw [statusFields_setDstat, ← h])

theorem setTblv_of_tblv {st : BitVec 16} {b : Bool} (h : (statusFields st).tblv = b) :
    setTblv st b = st :=
  statusFields_injective (by rw [statusFields_setTblv, ← h])

theorem setColl_of_coll {st : BitVec 16} {b : Bool} (h : (statusFields st).coll = b) :
    setColl st b = st :=
  statusFields_injective (by rw [statusFields_setColl, ← h])

/-! ### Writing a result that the registers already hold -/

theorem Regs.done_done (r : Regs c) : r.done.done = r.done := by
  have herr : (statusFields r.done.status).err = ErrCode.none.code := by
    rw [Regs.done_status, statusFields_setErr]
  rw [Regs.done, setErr_of_err herr]
  rfl

section Self

variable {r : Regs c}

theorem Regs.withCodeword_self {v : BitVec c.N} (h : r.cw = v) : r.withCodeword v = r := by
  rw [← h, Regs.withCodeword]

theorem Regs.withTable_self {t : Vector (Entry c) (2 ^ c.P)} {k : Bool} (ht : r.table = t)
    (hb : (statusFields r.status).tblv = true) (hk : (statusFields r.status).coll = k) :
    r.withTable t k = r := by
  rw [← ht, Regs.withTable, setTblv_of_tblv hb, setColl_of_coll hk]

theorem Regs.withDecode_self {y : BitVec c.P} {o : BitVec c.N} {x : BitVec c.IW} {d : DecodeStatus}
    (hy : r.syn = y) (ho : r.out = o) (hx : r.idx = x) (hd : (statusFields r.status).dstat = d.code) :
    r.withDecode y o x d = r := by
  rw [← hy, ← ho, ← hx, Regs.withDecode, setDstat_of_dstat hd]

end Self

/-! ### A command run a second time (R170, R120 (5), R135 (3), R150 (5)) -/

/-- ENC computes from MSG, which it keeps. -/
theorem instrRegs_enc_enc (r : Regs c) : instrRegs (instrRegs r .enc) .enc = instrRegs r .enc := by
  have hself : (instrRegs r .enc).withCodeword (encodeMessage (instrRegs r .enc)) = instrRegs r .enc :=
    Regs.withCodeword_self rfl
  rw [instrRegs, hself]
  exact Regs.done_done _

/-- TBLD computes from CW, which it keeps. -/
theorem instrRegs_tbld_tbld (r : Regs c) : instrRegs (instrRegs r .tbld) .tbld = instrRegs r .tbld := by
  have hself : (instrRegs r .tbld).withTable (buildTable c (instrRegs r .tbld).cw).1
      (buildTable c (instrRegs r .tbld).cw).2 = instrRegs r .tbld :=
    Regs.withTable_self rfl (by simp [instrRegs]) (by simp [instrRegs])
  rw [instrRegs, hself]
  exact Regs.done_done _

/-- The corrector leaves registers that it takes to themselves: it computes from RX and the table, which it
keeps. -/
theorem correct_instrRegs_dec (r : Regs c) : correct (instrRegs r .dec) = instrRegs r .dec := by
  have hrx : (instrRegs r .dec).rx = r.rx := (commandStep_instrRegs r .dec).read_readWrite (n := .rx) rfl
  have htable : (instrRegs r .dec).table = r.table := instrRegs_table r .dec (by decide)
  cases hv : (tableRead r.table (synp c r.rx)).valid with
  | true =>
    rw [correct_of_hit _ (by rw [htable, hrx, hv]), htable, hrx]
    exact Regs.withDecode_self (syn_instrRegs_dec r) (out_instrRegs_dec_of_hit hv)
      (idx_instrRegs_dec_of_hit hv) (by rw [statusFields_instrRegs_dec_of_hit hv, DecodeStatus.code])
  | false =>
    rw [correct_of_miss _ (by rw [htable, hrx, hv]), hrx]
    exact Regs.withDecode_self (syn_instrRegs_dec r) (out_instrRegs_dec_of_miss hv)
      (idx_instrRegs_dec_of_miss hv) (dstat_instrRegs_dec_of_miss hv)

theorem instrRegs_dec_dec (r : Regs c) : instrRegs (instrRegs r .dec) .dec = instrRegs r .dec := by
  rw [instrRegs, correct_instrRegs_dec]
  exact Regs.done_done _

/-- Settles O48: each of the four leaves registers that it takes to themselves. -/
theorem repeatedCommandsChangeNothing : Obligations.RepeatedCommandsChangeNothing := by
  intro s i hi
  have hregs : instrRegs (instrRegs s.regs i) i = instrRegs s.regs i := by
    rcases hi with rfl | rfl | rfl | rfl
    · exact Regs.done_done s.regs
    · exact instrRegs_enc_enc s.regs
    · exact instrRegs_tbld_tbld s.regs
    · exact instrRegs_dec_dec s.regs
  exact ⟨s.withRegs (instrRegs s.regs i), exec_eq i s,
    (exec_eq i _).trans (congrArg (fun r => Host.Outcome.next (s.withRegs r)) hregs)⟩

end Sys2Proof.Machine
end

section
/-! The exceptions' statements (60_exceptions.md): every step answers, each error has its cause, and a failing
command reports it and writes nothing. -/

namespace Sys2Proof.Machine

variable {c : Config}

/-! ### No condition stops the core (R181, R199) -/

/-- Settles O8: `step_cases` names the next state. -/
theorem stepAlwaysAnswersNext : Obligations.StepAlwaysAnswersNext := by
  intro s
  obtain ⟨r, more, hs, -⟩ := step_cases s
  exact ⟨_, hs, rfl, more, rfl⟩

/-! ### The error that a command reports (R182 to R184, R186) -/

theorem ErrCode.code_injective : Function.Injective ErrCode.code := by
  intro e e'
  cases e <;> cases e' <;> decide

theorem failCause_badLength_iff {r : Regs c} {o : Option Instr} : FailCause r o .badLength ↔
    (o = some .mul ∧ mulBadLength r) ∨ (o = some .mod ∧ ¬ modDegenerate r ∧ modBadLength r) := by
  constructor
  · intro h
    cases h with
    | mulLength hlen => exact .inl ⟨rfl, hlen⟩
    | modLength hdiv hlen => exact .inr ⟨rfl, hdiv, hlen⟩
  · rintro (⟨rfl, hlen⟩ | ⟨rfl, hdiv, hlen⟩)
    · exact .mulLength hlen
    · exact .modLength hdiv hlen

theorem failCause_degenerateDivisor_iff {r : Regs c} {o : Option Instr} :
    FailCause r o .degenerateDivisor ↔ o = some .mod ∧ modDegenerate r := by
  constructor
  · intro h
    cases h with
    | modDivisor hdiv => exact ⟨rfl, hdiv⟩
  · rintro ⟨rfl, hdiv⟩
    exact .modDivisor hdiv

/-- A command has at most one cause of failure: MOD's length check is made after its divisor check (R186). -/
theorem FailCause.unique {r : Regs c} {o : Option Instr} {e e' : ErrCode} (h : FailCause r o e)
    (h' : FailCause r o e') : e = e' := by
  cases h with
  | reserved | mulLength =>
    cases h'
    rfl
  | modDivisor hdiv =>
    cases h' with
    | modDivisor => rfl
    | modLength hdiv' => exact absurd hdiv hdiv'
  | modLength hdiv =>
    cases h' with
    | modDivisor hdiv' => exact absurd hdiv' hdiv
    | modLength => rfl

/-- A command that has a cause of failure fails by it: no success is left beside it. -/
theorem CommandStep.eq_fail_of_failCause {o : Option Instr} {r r' : Regs c} {e : ErrCode}
    (h : CommandStep r o r') (hcause : FailCause r o e) : r' = r.fail e := by
  cases h with
  | fail cause => rw [cause.unique hcause]
  | nop | enc | tbld | hit | miss => cases hcause
  | mul hlen =>
    cases hcause with
    | mulLength hbad => exact absurd hbad hlen
  | mod hdiv hlen =>
    cases hcause with
    | modDivisor hdeg => exact absurd hdeg hdiv
    | modLength _ hbad => exact absurd hbad hlen

/-- A command that leaves an error has failed by its cause (R12, R181). -/
theorem CommandStep.eq_fail_of_err {o : Option Instr} {r r' : Regs c} (h : CommandStep r o r')
    (he : (statusFields r'.status).err ≠ 0#3) : ∃ e, FailCause r o e ∧ r' = r.fail e := by
  cases h with
  | fail cause => exact ⟨_, cause, rfl⟩
  | nop | mul | mod | enc | tbld | hit | miss => simp [ErrCode.code] at he

/-- A command leaves an error's code in ERR exactly when it has that error's cause. -/
theorem CommandStep.err_eq_code_iff {o : Option Instr} {r r' : Regs c} (h : CommandStep r o r')
    {e : ErrCode} (hne : e ≠ .none) : (statusFields r'.status).err = e.code ↔ FailCause r o e := by
  constructor
  · intro he
    obtain ⟨e', cause, rfl⟩ := h.eq_fail_of_err (he ▸ ErrCode.code_injective.ne hne)
    rw [statusFields_fail] at he
    exact ErrCode.code_injective he ▸ cause
  · intro cause
    rw [h.eq_fail_of_failCause cause, statusFields_fail]

/-- Settles O15: ERR is 2 or 3 exactly by a cause with that code, and a failure keeps RES and LENR. -/
theorem lengthErrorsExactly : Obligations.LengthErrorsExactly := by
  intro s i
  have hstep := commandStep_instrRegs s.regs i
  refine ⟨instrRegs s.regs i, exec_eq i s, ?badLength, ?degenerate, fun he => ?kept⟩
  case badLength =>
    refine (hstep.err_eq_code_iff (e := .badLength) (by decide)).trans
      (failCause_badLength_iff.trans (or_congr ?mul ?mod))
    case mul =>
      refine and_congr Option.some_inj ?_
      simp only [mulBadLength]
      omega
    case mod =>
      refine and_congr Option.some_inj (and_congr_right fun _ => ?_)
      simp only [modBadLength]
      omega
  case degenerate =>
    exact (hstep.err_eq_code_iff (e := .degenerateDivisor) (by decide)).trans
      (failCause_degenerateDivisor_iff.trans (and_congr_left' Option.some_inj))
  case kept =>
    obtain ⟨e, -, hfail⟩ := hstep.eq_fail_of_err he
    rw [hfail]
    exact ⟨rfl, rfl⟩

/-! ### A failing command writes nothing else (R12, R181) -/

/-- Settles O37: a command that leaves an error leaves `fail`'s registers. -/
theorem failingCommandWritesNothing : Obligations.FailingCommandWritesNothing := by
  intro s t w hw h he
  obtain rfl := Host.Outcome.next.inj ((step_command hw).symm.trans h)
  obtain ⟨e, -, hfail⟩ := (commandStep_commandRegs s.regs w).eq_fail_of_err he
  refine ⟨s.regs.fail e, by rw [hfail], ?_, sameExcept_withStatus s.regs _, rfl⟩
  rw [State.withRegs_regs, hfail, statusFields_fail]

end Sys2Proof.Machine
end

section
/-! The reset's and the hazards' statements (70_reset_and_hazards.md): what a reset leaves and no other step
takes back, and that ENC and TBLD may be run in either order. -/

namespace Sys2Proof.Machine

variable {c : Config}

/-! ### What a step other than a reset keeps (R211) -/

theorem CommandStep.table_of_ne_tbld {o : Option Instr} {r r' : Regs c} (h : CommandStep r o r')
    (ho : o ≠ some .tbld) : r'.table = r.table := by
  cases h with
  | fail | nop | mul | mod | enc => rfl
  | tbld => exact absurd rfl ho
  | hit | miss => rfl

theorem RegsStep.table_of_not_tbld {s : State} {r : Regs s.cfg} (h : RegsStep s r) (hr : ¬ NextIsReset s)
    (hw : ¬ NextIsCommand s 0x04#8) : r.table = s.regs.table := by
  cases h with
  | same => rfl
  | write n v => exact write_table s.regs v n
  | command w hw' =>
    exact (commandStep_commandRegs s.regs w).table_of_ne_tbld (decode_ne_of_not_next (i := .tbld) hw hw')
  | reset hr' => exact absurd hr' hr

/-- TBLV once set stays: a TBLD sets it and, a reset apart, nothing else writes it (R38). -/
theorem step_keeps_tblv {s t : State} (h : step s = .next t) (hr : ¬ NextIsReset s)
    (hb : (statusFields s.regs.status).tblv = true) : (statusFields t.regs.status).tblv = true := by
  obtain ⟨hset, hkeep, -⟩ := tblvSetByTbldUntilReset
  by_cases hw : NextIsCommand s 0x04#8
  · obtain ⟨t', h', hb'⟩ := hset s hw
    obtain rfl := Host.Outcome.next.inj (h'.symm.trans h)
    exact hb'
  · rw [hkeep s t h hw hr, hb]

theorem step_reset {s : State} {rest : List PortEvent} (hp : s.port = .reset :: rest) :
    step s = .next (({ s with port := rest } : State).withRegs (Regs.reset s.cfg)) := by
  obtain ⟨cfg, regs, port, replies⟩ := s
  obtain rfl : port = .reset :: rest := hp
  rfl

/-- Settles O11: a reset is its own arm of `accept`; by `step_cases` any other step is a host write or a
command, which keep ERRS, TBLV and, but for TBLD, the table. -/
theorem resetEventSetsResetState : Obligations.ResetEventSetsResetState := by
  refine ⟨fun s rest => step_reset, fun s hr => ?_⟩
  obtain ⟨r, more, hs, hstep⟩ := step_cases s
  have herrs := (step_errs hs hr).mpr
  have htblv := step_keeps_tblv hs hr
  exact ⟨r, s.port.tail, s.replies ++ more, hs, fun he => herrs (.inl he), htblv,
    hstep.table_of_not_tbld hr⟩

/-! ### The reset state (R210, R212) -/

/-- Settles O10: the registers as `Regs.reset` writes them, STATUS by its fields, the table by its reads. -/
theorem resetStateValues : Obligations.ResetStateValues := fun c =>
  ⟨rfl, statusFields_reset c, rfl, rfl, rfl, rfl, rfl, rfl, rfl, rfl, rfl, rfl, rfl, rfl, rfl, rfl,
    tableRead_tableClear, rfl⟩

/-- Settles O46: `runInv_reset` holds of every configuration, that of `State.reset` among them. -/
theorem resetMeetsRunInvariant : Obligations.ResetMeetsRunInvariant :=
  ⟨runInv_reset, runInv_reset Config.default⟩

/-! ### ENC and TBLD in either order (R221) -/

/-- What TBLD builds is the same from every codeword (R137, R139). -/
theorem buildTable_eq_of_codewords {v w : BitVec c.N} (hv : IsCodeword c v) (hw : IsCodeword c w) :
    buildTable c v = buildTable c w := by
  have htable : (buildTable c v).1 = (buildTable c w).1 :=
    (fixedTable_buildTable hv).unique (fixedTable_buildTable hw)
  have hcoll : (buildTable c v).2 = (buildTable c w).2 :=
    Bool.eq_iff_iff.mpr ((buildTable_collision hv).trans (buildTable_collision hw).symm)
  exact Prod.ext htable hcoll

/-- The end of a command before TBLD's writes is lost in TBLD's own end: both write ERR. -/
theorem Regs.done_withTable_done (r : Regs c) (t : Vector (Entry c) (2 ^ c.P)) (k : Bool) :
    (r.done.withTable t k).done = (r.withTable t k).done := by
  have hstatus : (r.done.withTable t k).done.status = (r.withTable t k).done.status :=
    statusFields_injective (by simp)
  exact congrArg (r.withTable t k).withStatus hstatus

/-- ENC leaves TBLD a codeword again and TBLD leaves ENC its message; what they write lies apart but for
ERR. -/
theorem instrRegs_enc_tbld_comm {r : Regs c} (hcw : IsCodeword c r.cw) :
    instrRegs (instrRegs r .enc) .tbld = instrRegs (instrRegs r .tbld) .enc := by
  have hbuild : buildTable c (encodeMessage r) = buildTable c r.cw :=
    buildTable_eq_of_codewords (isCodeword_encodeMessage r) hcw
  calc instrRegs (instrRegs r .enc) .tbld
    _ = ((r.withCodeword (encodeMessage r)).done.withTable (buildTable c (encodeMessage r)).1
          (buildTable c (encodeMessage r)).2).done := rfl
    _ = ((r.withCodeword (encodeMessage r)).withTable (buildTable c r.cw).1 (buildTable c r.cw).2).done := by
      rw [hbuild, Regs.done_withTable_done]
    _ = ((r.withTable (buildTable c r.cw).1 (buildTable c r.cw).2).withCodeword
          (encodeMessage r)).done.done := (Regs.done_done _).symm
    _ = instrRegs (instrRegs r .tbld) .enc := rfl

/-- Settles O47: by `exec_eq` the four runs complete, and the two orders leave the same registers. -/
theorem encodeAndBuildCommute : Obligations.EncodeAndBuildCommute := by
  intro s hcw
  have hregs : instrRegs (instrRegs s.regs .tbld) .enc = instrRegs (instrRegs s.regs .enc) .tbld :=
    (instrRegs_enc_tbld_comm hcw).symm
  exact ⟨s.withRegs (instrRegs s.regs .enc), s.withRegs (instrRegs s.regs .tbld),
    s.withRegs (instrRegs (instrRegs s.regs .enc) .tbld), exec_eq .enc s, exec_eq .tbld _, exec_eq .tbld s,
    (exec_eq .enc _).trans (congrArg (fun r => Host.Outcome.next (s.withRegs r)) hregs)⟩

end Sys2Proof.Machine
end
